-- ==== Sys2Proof/Word.lean ====
section
/-! DEFINITION. The vector types of the block and the names of its six registers. -/

namespace Sys2Proof

/-- A value of `W` bits, bit 0 the least significant, always unsigned (R7). -/
abbrev Word (W : Nat) := BitVec W

/-- A command word: `W+2` bits, `op` in the two high bits and `data` below (R55). The length is
written `2 + W` because it is the concatenation of two bits with `W` bits. -/
abbrev CommandWord (W : Nat) := BitVec (2 + W)

/-- The six registers (R20). -/
inductive Reg where
  /-- `low`, bit 0 of the per-position count. -/
  | L
  /-- `high`, bit 1 of the per-position count. -/
  | H
  /-- `third`, bit 2 of the per-position count. -/
  | T
  /-- `d0`. -/
  | D0
  /-- `d1`. -/
  | D1
  /-- `d2`. -/
  | D2
  deriving DecidableEq, Repr

/-- The two register banks (R20). -/
inductive Bank where
  /-- Bank 3: L, H and T (R21). -/
  | bank3
  /-- Bank 4: D0, D1 and D2 (R22). -/
  | bank4
  deriving DecidableEq, Repr

/-- Which bank a register belongs to (R20). -/
def Reg.bank : Reg → Bank
  | .L => .bank3
  | .H => .bank3
  | .T => .bank3
  | .D0 => .bank4
  | .D1 => .bank4
  | .D2 => .bank4

end Sys2Proof
end

