-- ==== Sys2Proof/Config.lean ====
section
/-! DEFINITION. What a build of the block fixes, and the free values the spec leaves open. -/

namespace Sys2Proof

/-- The width of the reference instance (R5). Only `State.reset` and `decodeTableWord` use it;
every other definition takes the width as an argument. DESIGN CHOICE (log 1). -/
def Config.refWidth : Nat := 32

/-- A build exists for every width of at least one bit (R5). -/
def Config.legalWidth (W : Nat) : Bool := decide (1 ≤ W)

/-- The value a register holds before the first reset edge: a free draw, under no law (R142, U1).
The first argument numbers the power-on, so that two instances or two power-ons need not agree.
It has no body, so nothing can be proved of a particular draw. A free value, safe (log 5). -/
opaque Config.preResetDraw : Nat → (W : Nat) → Reg → Word W

end Sys2Proof
end

