-- ==== Sys2Proof/Syntax.lean ====
section
/-! DEFINITION. The commands of the block: one constructor per row of the opcode table. -/

namespace Sys2Proof

/-- The four commands (R56). The element of ACC3 and ACC4 is the integer the host presents (R11);
that it fits the build's width is `Instr.wf`. -/
inductive Instr where
  /-- NOP, the idle command (R100). -/
  | nop
  /-- ACC3 x, one step of `tally_mod3` (R75). -/
  | acc3 (x : Nat)
  /-- ACC4 x, one step of `tally_mod4` (R85). -/
  | acc4 (x : Nat)
  /-- CLR, all six registers to zero (R101). -/
  | clr
  deriving DecidableEq, Repr

end Sys2Proof
end

