-- ==== Sys2Proof/WellFormed.lean ====
section
/-! DEFINITION. Which commands a build of a given width can be presented with. -/

namespace Sys2Proof

/-- An element fits the `W` wires of `cmd_data` (R46, R57). -/
def fitsWidth (W x : Nat) : Bool := decide (x < 2 ^ W)

/-- A command is well formed for a build of width `W` when the build exists (R5) and the command's
element, if it has one, is a `W`-bit value (R57). -/
def Instr.wf (W : Nat) : Instr → Bool
  | .nop => Config.legalWidth W
  | .acc3 x => Config.legalWidth W && fitsWidth W x
  | .acc4 x => Config.legalWidth W && fitsWidth W x
  | .clr => Config.legalWidth W

end Sys2Proof
end

