-- ==== Sys2Proof/Decode.lean ====
section
/-! DEFINITION. The decoder of command words, total (R59), and after it the encoder. -/

namespace Sys2Proof

/-- `op` = CW[W+1:W] (R55). -/
def opField {W : Nat} (cw : CommandWord W) : BitVec 2 := cw.extractLsb' W 2

/-- `data` = CW[W-1:0] (R55). -/
def dataField {W : Nat} (cw : CommandWord W) : Word W := cw.setWidth W

/-- The command of a command word, by its `op` field (R56). Every word decodes (R59). The element is
`data` taken bit for bit (R57), and NOP and CLR ignore `data`. -/
def decode {W : Nat} (cw : CommandWord W) : Instr :=
  if opField cw = 0b00#2 then .nop
  else if opField cw = 0b01#2 then .acc3 (dataField cw).toNat
  else if opField cw = 0b10#2 then .acc4 (dataField cw).toNat
  else .clr

/-- CW = {cmd_op, cmd_data} (R55). -/
def commandWord {W : Nat} (op : BitVec 2) (data : Word W) : CommandWord W := op ++ data

/-- The command code of each command (R56). -/
def Instr.opcode : Instr → BitVec 2
  | .nop => 0b00#2
  | .acc3 _ => 0b01#2
  | .acc4 _ => 0b10#2
  | .clr => 0b11#2

/-- The integer a command puts into the `data` field: its element, and 0 for NOP and CLR, whose
canonical words have `data` = 0 (R59). -/
def Instr.element : Instr → Nat
  | .nop => 0
  | .acc3 x => x
  | .acc4 x => x
  | .clr => 0

/-- The canonical command word of a command (R55, R56, R59), its element reduced modulo `2 ^ W`
(R62). -/
def encode (W : Nat) (i : Instr) : CommandWord W :=
  commandWord i.opcode (BitVec.ofNat W i.element)

/-- A word is canonical when `data` = 0 for NOP and CLR (R59). -/
def canonical {W : Nat} (cw : CommandWord W) : Bool :=
  (opField cw == 0b01#2) || (opField cw == 0b10#2) || (dataField cw == 0#W)

/-- The command word whose value is the number `w`: there is one exactly when `w` needs no more
than the `W+2` bits of the port (R46, R55). DESIGN CHOICE, safe (log 7). -/
def commandWord? (W w : Nat) : Option (CommandWord W) :=
  if w < 2 ^ (2 + W) then some (BitVec.ofNat (2 + W) w) else none

/-- The instruction of a row of the opcode table, whose words are the single command word of the
reference width, bit 0 its least significant bit. `nbits` is not needed: the bits the table does
not give are zeros of `w` already. Refused when `w` has a bit above the command word. -/
def decodeTableWord (_nbits w : Nat) : Option Instr :=
  (commandWord? Config.refWidth w).map decode

end Sys2Proof
end

