-- ==== Sys2Proof/Machine/State.lean ====
section
/-! DEFINITION. The state of the block: its six registers, the width it is built with, and the
values its host will present. -/

namespace Sys2Proof.Machine

/-- The whole architectural state of the block: six registers of `W` bits in two banks
(R20, R33). No bit is hardwired (R23). -/
structure Regs (W : Nat) where
  /-- Bank 3, `low`. -/
  L : Word W
  /-- Bank 3, `high`. -/
  H : Word W
  /-- Bank 3, `third`. -/
  T : Word W
  /-- Bank 4, `d0`. -/
  D0 : Word W
  /-- Bank 4, `d1`. -/
  D1 : Word W
  /-- Bank 4, `d2`. -/
  D2 : Word W
  deriving DecidableEq, Repr

/-- The reset value of every register (R32). -/
def Regs.zero (W : Nat) : Regs W :=
  { L := 0#W, H := 0#W, T := 0#W, D0 := 0#W, D1 := 0#W, D2 := 0#W }

/-- Defined values on the input ports at one rising edge (R28). -/
structure Inputs (W : Nat) where
  /-- `rst`, synchronous reset, active high. -/
  rst : Bool
  /-- `cmd_valid`. -/
  valid : Bool
  /-- `cmd_op`. -/
  op : BitVec 2
  /-- `cmd_data`. -/
  data : Word W
  deriving DecidableEq, Repr

/-- What is found on the input ports at one rising edge. A port is `none` when any of its wires
carries no defined 0 or 1, which the host must not let happen (R150, U3). DEDUCED, safe (log 4). -/
structure Sample (W : Nat) where
  /-- `rst`. -/
  rst : Option Bool
  /-- `cmd_valid`. -/
  valid : Option Bool
  /-- `cmd_op`. -/
  op : Option (BitVec 2)
  /-- `cmd_data`. -/
  data : Option (Word W)
  deriving DecidableEq, Repr

/-- The six registers, with two fields of the model's own: the width of the build, which is
configuration (R5, R27; DESIGN CHOICE, log 1), and what the host will present at the coming edges,
oldest first, which is the environment (R28; DESIGN CHOICE, safe, log 2). -/
structure State where
  /-- The width the block is built with; no step writes it. -/
  W : Nat
  /-- The six registers. -/
  regs : Regs W
  /-- The samples of the coming edges, the next edge's first. -/
  presented : List (Sample W)
  deriving DecidableEq, Repr

/-- Why the block itself would stop with a fault: never (R115, R128), so there is no constructor. -/
inductive Fault
  deriving DecidableEq, Repr

/-- Why the model gives a step no meaning. -/
inductive Refusal where
  /-- Raised by `exec` for an instruction that has no meaning yet: none is left. Safe. -/
  | notModelled (mnemonic : String)
  /-- Raised by an edge at which an input port is undefined: the host broke its duty (R128, R150,
  U3). Safe: nothing is claimed of such a run. -/
  | undefinedInput
  deriving DecidableEq, Repr

/-- A block of width `W` just after a reset edge (R141, R145), with nothing scheduled. -/
def State.resetAt (W : Nat) : State := { W := W, regs := Regs.zero W, presented := [] }

/-- The reference block just after a reset edge: all six registers zero (R32, R145). -/
def State.reset : State := State.resetAt Config.refWidth

/-- A block of width `W` at its `k`-th power-on, before any reset edge: every register holds its
draw (R142). A free value, safe (log 5). -/
def State.powerOn (k W : Nat) : State :=
  { W := W
    regs :=
      { L := Config.preResetDraw k W .L
        H := Config.preResetDraw k W .H
        T := Config.preResetDraw k W .T
        D0 := Config.preResetDraw k W .D0
        D1 := Config.preResetDraw k W .D1
        D2 := Config.preResetDraw k W .D2 }
    presented := [] }

end Sys2Proof.Machine
end

