-- ==== Sys2Proof/Machine/Ops.lean ====
section
/-! DEFINITION. The named operations over the registers, the state and the input ports. There are no
flags (R26), no memory (R40) and no exceptions (R115), so there are no operations over those. -/

namespace Sys2Proof.Machine

/-- The value of a register by name; on the outputs each has a port of its own (R24, R29). -/
def Regs.get {W : Nat} (r : Regs W) : Reg → Word W
  | .L => r.L
  | .H => r.H
  | .T => r.T
  | .D0 => r.D0
  | .D1 => r.D1
  | .D2 => r.D2

/-- Step 1 of `tally_mod3`: the positions that carry out of count bit 0 (R75, R77). -/
def Regs.carry {W : Nat} (r : Regs W) (X : Word W) : Word W := r.L &&& X

/-- Step 3 of `tally_mod3`: the positions that carry out of count bit 1, from H as it stood before
the command (R75, R77). -/
def Regs.carry2 {W : Nat} (r : Regs W) (X : Word W) : Word W := r.H &&& r.carry X

/-- The literal steps 1 to 5 of `tally_mod3`. Every right-hand side reads the registers before the
edge (R9, R75). T is not fed back. -/
def Regs.acc3 {W : Nat} (r : Regs W) (X : Word W) : Regs W :=
  { r with L := r.L ^^^ X, H := r.H ^^^ r.carry X, T := r.T ^^^ r.carry2 X }

/-- The three equations of `tally_mod4` in one synchronous update: every right-hand side reads the
registers before the edge (R9, R85, C2). -/
def Regs.acc4 {W : Nat} (r : Regs W) (X : Word W) : Regs W :=
  { r with
    D0 := ~~~r.D1 &&& ~~~r.D2 &&& (r.D0 ^^^ X)
    D1 := ~~~r.D0 &&& ~~~r.D2 &&& (r.D1 ^^^ X)
    D2 := ~~~r.D0 &&& ~~~r.D1 &&& (r.D2 ^^^ X) }

/-- All six registers to their reset values (R32, R101). -/
def Regs.clear {W : Nat} (_r : Regs W) : Regs W := Regs.zero W

/-- The state with its registers replaced: all that a command or a reset edge writes. -/
def State.setRegs (s : State) (r : Regs s.W) : State := { s with regs := r }

/-- The state with the host's schedule replaced. -/
def State.setPresented (s : State) (ps : List (Sample s.W)) : State := { s with presented := ps }

/-- A reset edge: every register takes its reset value (R141). -/
def State.resetEdge (s : State) : State := s.setRegs (Regs.zero s.W)

/-- The sample of ports that all carry defined values. -/
def Inputs.sample {W : Nat} (v : Inputs W) : Sample W :=
  { rst := some v.rst, valid := some v.valid, op := some v.op, data := some v.data }

/-- The values of a sample, if every port is defined (R150). -/
def Sample.inputs? {W : Nat} (p : Sample W) : Option (Inputs W) :=
  match p.rst, p.valid, p.op, p.data with
  | some rst, some valid, some op, some data => some { rst, valid, op, data }
  | _, _, _, _ => none

/-- The command word on the ports (R55); whether it is a command at all is `cmd_valid` (R58). -/
def Inputs.word {W : Nat} (v : Inputs W) : CommandWord W := commandWord v.op v.data

/-- The ports at an edge at which the host presents the command word `cw`. -/
def Inputs.ofWord {W : Nat} (cw : CommandWord W) : Inputs W :=
  { rst := false, valid := true, op := opField cw, data := dataField cw }

/-- The ports at an edge at which the host presents the command `i`. -/
def Inputs.ofInstr (W : Nat) (i : Instr) : Inputs W := Inputs.ofWord (encode W i)

/-- The ports at an edge at which the host presents the number `w` as a command word. The port
cannot carry a number of more than `W+2` bits, and its command wires are then undefined. DESIGN
CHOICE, safe (log 7). -/
def Sample.ofNumber (W w : Nat) : Sample W :=
  { rst := some false
    valid := some true
    op := (commandWord? W w).map opField
    data := (commandWord? W w).map dataField }

end Sys2Proof.Machine
end

