-- ==== Sys2Proof/Machine/Operands.lean ====
section
/-! DEFINITION. The one operand form of the block: the element of ACC3 and ACC4. -/

namespace Sys2Proof.Machine

/-- X, the `W`-bit element on `cmd_data` (R57). An integer that fits is taken bit for bit; a wider
one could only reach the port reduced modulo `2 ^ W` (R46, R62; DESIGN CHOICE, safe, log 6). -/
def operandX (W x : Nat) : Word W := BitVec.ofNat W x

end Sys2Proof.Machine
end

