-- ==== Sys2Proof/Machine/Accumulate.lean ====
section
/-! DEFINITION. The accumulate commands ACC3 and ACC4. -/

namespace Sys2Proof.Machine

/-- ACC3 x: bank 3 takes one step of `tally_mod3`; bank 4 is unchanged (R75). -/
def execAcc3 (x : Nat) (s : State) : Host.Outcome State Fault Refusal :=
  .next (s.setRegs (s.regs.acc3 (operandX s.W x)))

/-- ACC4 x: bank 4 takes one step of `tally_mod4`; bank 3 is unchanged (R85). -/
def execAcc4 (x : Nat) (s : State) : Host.Outcome State Fault Refusal :=
  .next (s.setRegs (s.regs.acc4 (operandX s.W x)))

end Sys2Proof.Machine
end

