-- ==== Sys2Proof/Machine/Control.lean ====
section
/-! DEFINITION. The control commands NOP and CLR. -/

namespace Sys2Proof.Machine

/-- NOP: no register is written (R100). -/
def execNop (s : State) : Host.Outcome State Fault Refusal := .next s

/-- CLR: all six registers become zero (R101). -/
def execClr (s : State) : Host.Outcome State Fault Refusal := .next (s.setRegs s.regs.clear)

end Sys2Proof.Machine
end

