-- ==== Sys2Proof/Machine/Dispatch.lean ====
section
/-! DEFINITION. One arm per command, each a call of its meaning. -/

namespace Sys2Proof.Machine

def exec (i : Instr) (s : State) : Host.Outcome State Fault Refusal :=
  match i with
  | .nop => Sys2Proof.Machine.execNop s
  | .acc3 x => Sys2Proof.Machine.execAcc3 x s
  | .acc4 x => Sys2Proof.Machine.execAcc4 x s
  | .clr => Sys2Proof.Machine.execClr s

end Sys2Proof.Machine
end

