-- ==== Sys2Proof/Machine/Edge.lean ====
section
/-! DEFINITION. What one rising edge does with the values on the input ports (R143). -/

namespace Sys2Proof.Machine

/-- An edge at which all ports are defined: a reset wins over a command (R141), no command is
decoded without `cmd_valid` (R58, R103), and otherwise the decoded command takes effect. -/
def applyInputs (s : State) (v : Inputs s.W) : Host.Outcome State Fault Refusal :=
  if v.rst then .next s.resetEdge
  else if v.valid then exec (decode v.word) s
  else .next s

/-- An edge at which the ports carry the sample `p`; undefined ports are refused (R150). -/
def edge (s : State) (p : Sample s.W) : Host.Outcome State Fault Refusal :=
  match p.inputs? with
  | some v => applyInputs s v
  | none => .refused .undefinedInput

/-- An edge past the end of the host's schedule: the host presents no command, so every register
holds (R103, R127, R151). DEDUCED, unsafe (log 3). -/
def idleEdge (s : State) : Host.Outcome State Fault Refusal := .next s

end Sys2Proof.Machine
end

