-- ==== Sys2Proof/Machine/Step.lean ====
section
/-! DEFINITION. One step: one rising edge of the clock (R140). -/

namespace Sys2Proof.Machine

/-- One rising edge: the next sample of the host's schedule is taken, and the edge acts on it. -/
def step (s : State) : Host.Outcome State Fault Refusal :=
  match s.presented with
  | [] => idleEdge s
  | p :: rest => edge (s.setPresented rest) p

/-- The state in which the host presents the command word `w` at the next edge, and what it was
going to present after that. The block has no stored program (R25): the port is where a step takes
its command from. -/
def State.withFetchWord (s : State) (_nbits w : Nat) : State :=
  s.setPresented (Sample.ofNumber s.W w :: s.presented)

end Sys2Proof.Machine
end

