-- ==== Sys2Proof/Machine/Ports.lean ====
section
/-! DEFINITION. The output ports (R29). They are functions of the registers alone, so no input
reaches an output without an edge, and sampling them changes nothing. -/

namespace Sys2Proof.Machine

/-- The values on the six output ports (R29). -/
structure Outputs (W : Nat) where
  /-- `q_low`. -/
  qLow : Word W
  /-- `q_high`. -/
  qHigh : Word W
  /-- `q_third`. -/
  qThird : Word W
  /-- `q_d0`. -/
  qD0 : Word W
  /-- `q_d1`. -/
  qD1 : Word W
  /-- `q_d2`. -/
  qD2 : Word W
  deriving DecidableEq, Repr

/-- Each output is driven directly by its register (R29). -/
def Regs.outputs {W : Nat} (r : Regs W) : Outputs W :=
  { qLow := r.L, qHigh := r.H, qThird := r.T, qD0 := r.D0, qD1 := r.D1, qD2 := r.D2 }

/-- The outputs between two edges (R140, R148). What a host would sample at an edge is given no
meaning (U4; DEDUCED, safe, log 10). -/
def State.outputs (s : State) : Outputs s.W := s.regs.outputs

/-- The two-register result of `tally_mod3`: `(low, high)` (R79). -/
def Outputs.tallyMod3 {W : Nat} (o : Outputs W) : Word W × Word W := (o.qLow, o.qHigh)

/-- The result of `tally_mod4`: `(d0, d1, d2)` (R64). -/
def Outputs.tallyMod4 {W : Nat} (o : Outputs W) : Word W × Word W × Word W := (o.qD0, o.qD1, o.qD2)

end Sys2Proof.Machine
end

