-- ==== Sys2Proof/Machine/Lanes.lean ====
section
/-! DEFINITION. The per-position view: lanes, the transition tables of the spec, counts, and the
host's decoding of a residue (R10, R76, R86, R93, R95). -/

namespace Sys2Proof.Machine

/-- Three bits of one position: `(T, H, L)` for bank 3, `(D0, D1, D2)` for bank 4 (R10). -/
abbrev Lane := Bool × Bool × Bool

/-- `(T_i, H_i, L_i)` (R10). -/
def Regs.lane3 {W : Nat} (r : Regs W) (i : Fin W) : Lane :=
  (r.T.getLsbD i, r.H.getLsbD i, r.L.getLsbD i)

/-- `(D0_i, D1_i, D2_i)` (R10). -/
def Regs.lane4 {W : Nat} (r : Regs W) (i : Fin W) : Lane :=
  (r.D0.getLsbD i, r.D1.getLsbD i, r.D2.getLsbD i)

/-- The three registers of bank 3 (R20). -/
def Regs.bank3 {W : Nat} (r : Regs W) : Word W × Word W × Word W := (r.L, r.H, r.T)

/-- The three registers of bank 4 (R20). -/
def Regs.bank4 {W : Nat} (r : Regs W) : Word W × Word W × Word W := (r.D0, r.D1, r.D2)

/-- The transition table of ACC3, row by row (R76): the lane is `(T, H, L)`, then X[i]. -/
def acc3Table : Lane → Bool → Lane
  | (false, false, false), false => (false, false, false)
  | (false, false, true), false => (false, false, true)
  | (false, true, false), false => (false, true, false)
  | (false, true, true), false => (false, true, true)
  | (true, false, false), false => (true, false, false)
  | (true, false, true), false => (true, false, true)
  | (true, true, false), false => (true, true, false)
  | (true, true, true), false => (true, true, true)
  | (false, false, false), true => (false, false, true)
  | (false, false, true), true => (false, true, false)
  | (false, true, false), true => (false, true, true)
  | (false, true, true), true => (true, false, false)
  | (true, false, false), true => (true, false, true)
  | (true, false, true), true => (true, true, false)
  | (true, true, false), true => (true, true, true)
  | (true, true, true), true => (false, false, false)

/-- The transition table of ACC4, row by row (R86): the lane is `(D0, D1, D2)`, then X[i]. -/
def acc4Table : Lane → Bool → Lane
  | (false, false, false), false => (false, false, false)
  | (true, false, false), false => (true, false, false)
  | (false, true, false), false => (false, true, false)
  | (false, false, true), false => (false, false, true)
  | (true, true, false), false => (false, false, false)
  | (true, false, true), false => (false, false, false)
  | (false, true, true), false => (false, false, false)
  | (true, true, true), false => (false, false, false)
  | (false, false, false), true => (true, true, true)
  | (true, false, false), true => (false, false, false)
  | (false, true, false), true => (false, false, false)
  | (false, false, true), true => (false, false, false)
  | (true, true, false), true => (false, false, false)
  | (true, false, true), true => (false, false, false)
  | (false, true, true), true => (false, false, false)
  | (true, true, true), true => (false, false, false)

/-- `v_i = 4·T_i + 2·H_i + L_i`, a value in 0..7 (R80). -/
def Regs.count3 {W : Nat} (r : Regs W) (i : Fin W) : Nat :=
  4 * (r.T.getLsbD i).toNat + 2 * (r.H.getLsbD i).toNat + (r.L.getLsbD i).toNat

/-- `res3_i = 2·H_i + L_i`, read from the outputs (R95). -/
def Outputs.res3 {W : Nat} (o : Outputs W) (i : Fin W) : Nat :=
  2 * (o.qHigh.getLsbD i).toNat + (o.qLow.getLsbD i).toNat

/-- The source's residue mapping, read from the outputs: a position with two or three bits set has
no residue, and the decode of it is refused (R95, U5; DESIGN CHOICE for `none`, safe, log 9). -/
def Outputs.res4 {W : Nat} (o : Outputs W) (i : Fin W) : Option Nat :=
  match o.qD0.getLsbD i, o.qD1.getLsbD i, o.qD2.getLsbD i with
  | false, false, false => some 0
  | true, false, false => some 1
  | false, true, false => some 2
  | false, false, true => some 3
  | true, true, _ => none
  | true, false, true => none
  | false, true, true => none

/-- `c_i`: how many of the elements have bit `i` set (R10). -/
def setCount {W : Nat} (i : Fin W) (xs : List (Word W)) : Nat := xs.countP (·.getLsbD i)

/-- How many consecutive elements ending at the last one have bit `i` set (R89). -/
def trailingRun {W : Nat} (i : Fin W) (xs : List (Word W)) : Nat :=
  (xs.reverse.takeWhile (·.getLsbD i)).length

end Sys2Proof.Machine
end

