-- ==== Sys2Proof/Machine/Run.lean ====
section
/-! DEFINITION. Runs of edges, the step at the level of the registers (R143), the transaction view
(R144) and the trace a host reproduces (R126). -/

namespace Sys2Proof.Machine

/-- `n` edges of the machine, by the host's own run of it. -/
def runEdges (n : Nat) (s : State) : Host.Outcome State Fault Refusal :=
  Host.Core.run Sys2Proof.core n s

/-- The step as one function of the registers and the sampled inputs, arm by arm as the spec writes
it (R143). -/
def Regs.edge {W : Nat} (r : Regs W) (v : Inputs W) : Regs W :=
  if v.rst = true then Regs.zero W
  else if v.valid = false then r
  else if v.op = 0b00#2 then r
  else if v.op = 0b01#2 then r.acc3 v.data
  else if v.op = 0b10#2 then r.acc4 v.data
  else r.clear

/-- The command rules on the registers (R75, R85, R100, R101). -/
def Regs.command {W : Nat} (r : Regs W) : Instr → Regs W
  | .nop => r
  | .acc3 x => r.acc3 (operandX W x)
  | .acc4 x => r.acc4 (operandX W x)
  | .clr => r.clear

/-- The left fold of the command rules over a list of commands (R144). -/
def Regs.run {W : Nat} (r : Regs W) (is : List Instr) : Regs W := is.foldl Regs.command r

/-- The command presented at an edge without reset, if `cmd_valid` says there is one (R58). -/
def Inputs.command? {W : Nat} (v : Inputs W) : Option Instr :=
  if v.valid then some (decode v.word) else none

/-- The edges after the last edge with `rst` = 1; all of them if there is none (R144). -/
def sinceReset {W : Nat} (vs : List (Inputs W)) : List (Inputs W) :=
  (vs.reverse.takeWhile (fun v => !v.rst)).reverse

/-- The commands with `cmd_valid` = 1 presented after the last reset edge, in edge order (R144). -/
def transactions {W : Nat} (vs : List (Inputs W)) : List Instr :=
  (sinceReset vs).filterMap Inputs.command?

/-- Where the fold of the transaction view starts: the all-zero state if a reset occurred, else the
registers as they were (R144). -/
def foldStart {W : Nat} (r : Regs W) (vs : List (Inputs W)) : Regs W :=
  if vs.any (·.rst) then Regs.zero W else r

/-- An edge that brings the block to the all-zero state: a reset, or a CLR (R146). -/
def Inputs.restarts {W : Nat} (v : Inputs W) : Bool := v.rst || (v.valid && v.op == 0b11#2)

/-- The element of an edge at which ACC3 takes effect. -/
def Inputs.element3? {W : Nat} (v : Inputs W) : Option (Word W) :=
  if !v.rst && v.valid && v.op == 0b01#2 then some v.data else none

/-- The element of an edge at which ACC4 takes effect. -/
def Inputs.element4? {W : Nat} (v : Inputs W) : Option (Word W) :=
  if !v.rst && v.valid && v.op == 0b10#2 then some v.data else none

/-- The host's schedule that presents these commands, one per edge, in order (R25, R49). -/
def schedule (W : Nat) (is : List Instr) : List (Sample W) :=
  is.map (fun i => (Inputs.ofInstr W i).sample)

/-- What a host that samples the outputs after every edge records (R126). -/
def Regs.trace {W : Nat} (r : Regs W) : List (Inputs W) → List (Outputs W)
  | [] => []
  | v :: vs => (r.edge v).outputs :: (r.edge v).trace vs

end Sys2Proof.Machine
end

