-- ==== Sys2Proof/Machine/Assembler.lean ====
section
/-! DEFINITION. The assembler and the disassembler of the spec (R61 to R66), over lists of
characters. Where R61 leaves a detail of the text open, log 8 says what is taken. -/

namespace Sys2Proof.Machine

/-- A statement of a program (R61). Literals are integers of any size (R62). -/
inductive Stmt where
  /-- `NOP`. -/
  | nop
  /-- `CLR`. -/
  | clr
  /-- `ACC3 <lit>`. -/
  | acc3 (v : Int)
  /-- `ACC4 <lit>`. -/
  | acc4 (v : Int)
  /-- `TALLY3 x1, ..., xn` (R63). -/
  | tally3 (vs : List Int)
  /-- `TALLY4 x1, ..., xn` (R64). -/
  | tally4 (vs : List Int)
  /-- `.width <n>` (R65). -/
  | width (n : Nat)
  deriving DecidableEq, Repr

/-- Why an assembler refuses a program. Lines are numbered from 1 (log 8). -/
inductive AsmError where
  /-- The line is no statement of R61. -/
  | badLine (line : Nat)
  /-- The line's `.width` differs from the width of the target block (R65). -/
  | widthMismatch (line : Nat)
  deriving DecidableEq, Repr

/-- An operand literal `v` is encoded as `v mod 2^W` (R62). -/
def literalData (W : Nat) (v : Int) : Nat := (v % (2 ^ W : Int)).toNat

/-- The commands a statement stands for (R61, R63, R64, R65). -/
def Stmt.expand (W : Nat) : Stmt → List Instr
  | .nop => [.nop]
  | .clr => [.clr]
  | .acc3 v => [.acc3 (literalData W v)]
  | .acc4 v => [.acc4 (literalData W v)]
  | .tally3 vs => .clr :: vs.map (fun v => .acc3 (literalData W v))
  | .tally4 vs => .clr :: vs.map (fun v => .acc4 (literalData W v))
  | .width _ => []

/-- A `.width` directive must name the width of the target block (R65). -/
def Stmt.fits (W : Nat) : Stmt → Bool
  | .width n => n == W
  | .nop => true
  | .clr => true
  | .acc3 _ => true
  | .acc4 _ => true
  | .tally3 _ => true
  | .tally4 _ => true

/-- White space within a line. DESIGN CHOICE (log 8). -/
def isBlank (c : Char) : Bool := c == ' ' || c == '\t' || c == '\r'

/-- The text without white space at either end. -/
def trim (cs : List Char) : List Char :=
  ((cs.dropWhile isBlank).reverse.dropWhile isBlank).reverse

/-- The pieces of a text between the separators. -/
def splitBy (sep : Char) : List Char → List (List Char)
  | [] => [[]]
  | c :: cs =>
    if c == sep then [] :: splitBy sep cs
    else
      match splitBy sep cs with
      | [] => [[c]]
      | p :: ps => (c :: p) :: ps

/-- The value of a digit, hexadecimal digits in either case (DESIGN CHOICE, log 8). -/
def digitValue (c : Char) : Option Nat :=
  if '0' ≤ c ∧ c ≤ '9' then some (c.toNat - 48)
  else if 'A' ≤ c ∧ c ≤ 'F' then some (c.toNat - 55)
  else if 'a' ≤ c ∧ c ≤ 'f' then some (c.toNat - 87)
  else none

/-- The number whose digits in `base` follow those of `acc`; refused at any other character. -/
def digitsFrom (base : Nat) : Nat → List Char → Option Nat
  | acc, [] => some acc
  | acc, c :: cs =>
    match digitValue c with
    | some d => if d < base then digitsFrom base (acc * base + d) cs else none
    | none => none

/-- A decimal, `0x` hexadecimal or `0b` binary number (R61). -/
def number? : List Char → Option Nat
  | [] => none
  | '0' :: 'x' :: c :: cs => digitsFrom 16 0 (c :: cs)
  | '0' :: 'b' :: c :: cs => digitsFrom 2 0 (c :: cs)
  | c :: cs => digitsFrom 10 0 (c :: cs)

/-- A literal: a number, optionally preceded by `-` (R61). -/
def literal? : List Char → Option Int
  | '-' :: cs => (number? cs).map (fun n => -(n : Int))
  | cs => (number? cs).map (fun n => (n : Int))

/-- Comma-separated literals, possibly none (R63). -/
def literals? (cs : List Char) : Option (List Int) :=
  if cs = [] then some [] else (splitBy ',' cs).mapM (fun p => literal? (trim p))

/-- A statement of a line's first word and the rest of the line. Mnemonics are written in upper
case, and lower-case spellings mean the same (R61). -/
def statement? (word rest : List Char) : Option Stmt :=
  if word = "NOP".toList ∨ word = "nop".toList then
    if rest = [] then some .nop else none
  else if word = "CLR".toList ∨ word = "clr".toList then
    if rest = [] then some .clr else none
  else if word = "ACC3".toList ∨ word = "acc3".toList then (literal? rest).map .acc3
  else if word = "ACC4".toList ∨ word = "acc4".toList then (literal? rest).map .acc4
  else if word = "TALLY3".toList ∨ word = "tally3".toList then (literals? rest).map .tally3
  else if word = "TALLY4".toList ∨ word = "tally4".toList then (literals? rest).map .tally4
  else if word = ".width".toList then (number? rest).map .width
  else none

/-- A line: `;` starts a comment, and a blank line holds no statement (R61). The outer `none`
refuses the line. -/
def line? (cs : List Char) : Option (Option Stmt) :=
  match trim (cs.takeWhile (· != ';')) with
  | [] => some none
  | t =>
    (statement? (t.takeWhile (fun c => !isBlank c)) (trim (t.dropWhile (fun c => !isBlank c)))).map
      some

/-- The commands of the lines from number `n` on, in text order, or the first refusal (R61). -/
def assembleLines (W : Nat) : Nat → List (List Char) → Except AsmError (List Instr)
  | _, [] => .ok []
  | n, l :: ls =>
    match line? l with
    | none => .error (.badLine n)
    | some none => assembleLines W (n + 1) ls
    | some (some st) =>
      if st.fits W then
        match assembleLines W (n + 1) ls with
        | .ok is => .ok (st.expand W ++ is)
        | .error e => .error e
      else .error (.widthMismatch n)

/-- The commands of a program for a block of width `W` (R61). -/
def assembleInstrs (W : Nat) (text : List Char) : Except AsmError (List Instr) :=
  assembleLines W 1 (splitBy '\n' text)

/-- The command words of a program for a block of width `W` (R61). -/
def assemble (W : Nat) (text : List Char) : Except AsmError (List (CommandWord W)) :=
  match assembleInstrs W text with
  | .ok is => .ok (is.map (encode W))
  | .error e => .error e

/-- The hexadecimal digit of a value below 16, in upper case (DESIGN CHOICE, log 8). -/
def hexDigit (d : Nat) : Char := if d < 10 then Char.ofNat (48 + d) else Char.ofNat (55 + d)

/-- The low `k` hexadecimal digits of a number, the most significant first. -/
def hexDigits : Nat → Nat → List Char
  | 0, _ => []
  | k + 1, x => hexDigits k (x / 16) ++ [hexDigit (x % 16)]

/-- The text of an element: an unsigned hexadecimal literal of `W/4` digits, rounded up (R66). -/
def elementText (W x : Nat) : List Char := "0x".toList ++ hexDigits ((W + 3) / 4) x

/-- The text of a command word: by `op`, NOP and CLR without an operand (R66). -/
def disassemble {W : Nat} (cw : CommandWord W) : List Char :=
  match decode cw with
  | .nop => "NOP".toList
  | .acc3 x => "ACC3 ".toList ++ elementText W x
  | .acc4 x => "ACC4 ".toList ++ elementText W x
  | .clr => "CLR".toList

end Sys2Proof.Machine
end

