-- ==== Sys2Proof/Safety.lean ====
section
/-! DEFINITION. What a safe run is: the host keeps its duty, and no step stops. -/

namespace Sys2Proof.Machine

/-- The host keeps its duty at one edge: every port is defined (R150). -/
def Sample.defined {W : Nat} (p : Sample W) : Bool :=
  p.rst.isSome && p.valid.isSome && p.op.isSome && p.data.isSome

/-- The host keeps its duty at every edge it has scheduled (R150). -/
def State.driven (s : State) : Bool := s.presented.all Sample.defined

/-- An outcome that neither faults nor refuses (R128). -/
def runsOn (o : Host.Outcome State Fault Refusal) : Prop := ∃ t, o = .next t

/-- Bank 4 holds one common value in its three registers (R89). -/
def State.bank4Agrees (s : State) : Prop := s.regs.D0 = s.regs.D1 ∧ s.regs.D1 = s.regs.D2

end Sys2Proof.Machine
end

