-- ==== Sys2Proof/Certificates/Slice0/Obligations.lean ====
section
/-! DEFINITION. The statements for the provers. `runEdges n s` is `n` edges of the machine; a state
is written `⟨W, r, ps⟩`: the width, the registers, the samples still to come. -/

open Sys2Proof Sys2Proof.Machine

/-! ### Encoding -/

/-- R55: the command word is `{cmd_op, cmd_data}`, and its two fields are read back from it. -/
def Obligations.CommandWordIsOpThenData : Prop :=
  ∀ (W : Nat) (op : BitVec 2) (d : Word W),
    (commandWord op d).toNat = op.toNat * 2 ^ W + d.toNat ∧
    opField (commandWord op d) = op ∧ dataField (commandWord op d) = d

/-- R56: the `op` field selects the command, and ACC3 and ACC4 take `data` as their element. -/
def Obligations.OpFieldSelectsCommand : Prop :=
  ∀ (W : Nat) (d : Word W),
    decode (commandWord 0b00#2 d) = .nop ∧
    decode (commandWord 0b01#2 d) = .acc3 d.toNat ∧
    decode (commandWord 0b10#2 d) = .acc4 d.toNat ∧
    decode (commandWord 0b11#2 d) = .clr

/-- Decode and encode agree, for every command and every width (R55, R56, R57). -/
def Obligations.DecodeEncodeRoundTrip : Prop :=
  ∀ (W : Nat) (i : Instr), i.wf W = true → decode (encode W i) = i

/-- R59: every word is a legal command that runs, and a non-canonical word decodes to the same
command as the canonical one. -/
def Obligations.EveryWordIsALegalCommand : Prop :=
  ∀ (W : Nat) (cw : CommandWord W),
    (1 ≤ W → (decode cw).wf W = true) ∧
    (∀ s : State, ∃ t, exec (decode cw) s = .next t) ∧
    decode (encode W (decode cw)) = decode cw ∧
    canonical (encode W (decode cw)) = true ∧
    (canonical cw = true ↔ encode W (decode cw) = cw) ∧
    (canonical cw = true ↔
      ((opField cw = 0b00#2 ∨ opField cw = 0b11#2) → dataField cw = 0#W))

/-- A few command words of the reference width, written out from R55 and R56 (95 E1 to E8), decode
to the commands they stand for. -/
def Obligations.WrittenOutWordsDecode : Prop :=
  decode (W := 32) 0x000000000#34 = .nop ∧
  decode (W := 32) 0x10000000B#34 = .acc3 11 ∧
  decode (W := 32) 0x20000000B#34 = .acc4 11 ∧
  decode (W := 32) 0x300000000#34 = .clr ∧
  decode (W := 32) 0x1FFFFFFFF#34 = .acc3 0xFFFFFFFF ∧
  decode (W := 32) 0x200000005#34 = .acc4 5 ∧
  decode (W := 32) 0x300001234#34 = .clr ∧
  decode (W := 32) 0x00000FFFF#34 = .nop

/-- R67: the example encodings at W = 32. -/
def Obligations.ExampleEncodings : Prop :=
  assemble 32 "NOP".toList = .ok [0x000000000#34] ∧
  assemble 32 "ACC3 11".toList = .ok [0x10000000B#34] ∧
  assemble 32 "ACC4 11".toList = .ok [0x20000000B#34] ∧
  assemble 32 "CLR".toList = .ok [0x300000000#34] ∧
  assemble 32 "ACC3 -1".toList = .ok [0x1FFFFFFFF#34] ∧
  assemble 32 "ACC4 0x100000005".toList = .ok [0x200000005#34]

/-- R57: the operand is `cmd_data` bit for bit, and NOP and CLR give the same effect for any value
of it. -/
def Obligations.OperandIsDataBitForBit : Prop :=
  ∀ (W : Nat) (r : Regs W) (ps : List (Sample W)) (d e : Word W),
    (∀ i, i < W → (operandX W d.toNat).getLsbD i = d.getLsbD i) ∧
    step ⟨W, r, Inputs.sample ⟨false, true, 0b01#2, d⟩ :: ps⟩ = .next ⟨W, r.acc3 d, ps⟩ ∧
    step ⟨W, r, Inputs.sample ⟨false, true, 0b10#2, d⟩ :: ps⟩ = .next ⟨W, r.acc4 d, ps⟩ ∧
    step ⟨W, r, Inputs.sample ⟨false, true, 0b00#2, d⟩ :: ps⟩ =
      step ⟨W, r, Inputs.sample ⟨false, true, 0b00#2, e⟩ :: ps⟩ ∧
    step ⟨W, r, Inputs.sample ⟨false, true, 0b11#2, d⟩ :: ps⟩ =
      step ⟨W, r, Inputs.sample ⟨false, true, 0b11#2, e⟩ :: ps⟩

/-! ### The result and the frame of each command -/

/-- The result of NOP in every state: nothing changes (41_control.md, NOP). -/
def Obligations.NopChangesNothing : Prop :=
  ∀ s : State, exec .nop s = .next s

/-- The result of CLR in every state: the six registers are zero, nothing else changes
(41_control.md, CLR). -/
def Obligations.ClrZeroesAllRegisters : Prop :=
  ∀ s : State, exec .clr s = .next { s with regs := ⟨0#s.W, 0#s.W, 0#s.W, 0#s.W, 0#s.W, 0#s.W⟩ }

/-- R75: ACC3 in every state and for every element that fits: the five steps with every right-hand
side read before any write, bank 4 and all else unchanged; its encoding; the worked example. -/
def Obligations.Acc3FollowsItsSteps : Prop :=
  (∀ (s : State) (X : Word s.W),
    exec (.acc3 X.toNat) s = .next { s with regs := { s.regs with
      L := s.regs.L ^^^ X
      H := s.regs.H ^^^ (s.regs.L &&& X)
      T := s.regs.T ^^^ (s.regs.H &&& (s.regs.L &&& X)) } }) ∧
  (∀ (W : Nat) (X : Word W), decode (commandWord 0b01#2 X) = .acc3 X.toNat) ∧
  exec (.acc3 11) State.reset =
    .next { State.reset with regs := { Regs.zero 32 with L := 0x0000000B#32 } }

/-- R85: ACC4 in every state and for every element that fits: the three equations with every D on
a right-hand side the value from before, bank 3 and all else unchanged; its encoding; the worked
example. -/
def Obligations.Acc4FollowsItsEquations : Prop :=
  (∀ (s : State) (X : Word s.W),
    exec (.acc4 X.toNat) s = .next { s with regs := { s.regs with
      D0 := ~~~s.regs.D1 &&& ~~~s.regs.D2 &&& (s.regs.D0 ^^^ X)
      D1 := ~~~s.regs.D0 &&& ~~~s.regs.D2 &&& (s.regs.D1 ^^^ X)
      D2 := ~~~s.regs.D0 &&& ~~~s.regs.D1 &&& (s.regs.D2 ^^^ X) } }) ∧
  (∀ (W : Nat) (X : Word W), decode (commandWord 0b10#2 X) = .acc4 X.toNat) ∧
  exec (.acc4 11) State.reset =
    .next { State.reset with
      regs := { Regs.zero 32 with D0 := 0xB#32, D1 := 0xB#32, D2 := 0xB#32 } }

/-- The model's choice for an element wider than the port (log 6): it acts as its value modulo
`2^W`. No command word decodes to such an element. -/
def Obligations.WideElementIsReduced : Prop :=
  ∀ (s : State) (x : Nat),
    exec (.acc3 x) s = exec (.acc3 (x % 2 ^ s.W)) s ∧
    exec (.acc4 x) s = exec (.acc4 (x % 2 ^ s.W)) s

/-- NOP and CLR are idempotent; ACC3 and ACC4 are not in general (20_memory.md, Widths, atomicity
and side effects). -/
def Obligations.IdempotentCommands : Prop :=
  (∀ s t : State, exec .nop s = .next t → exec .nop t = .next t ∧ t = s) ∧
  (∀ s t : State, exec .clr s = .next t → exec .clr t = .next t) ∧
  (∃ (s t u : State) (x : Nat),
    exec (.acc3 x) s = .next t ∧ exec (.acc3 x) t = .next u ∧ u.regs.L.toNat ≠ t.regs.L.toNat) ∧
  (∃ (s t u : State) (x : Nat),
    exec (.acc4 x) s = .next t ∧ exec (.acc4 x) t = .next u ∧ u.regs.D0.toNat ≠ t.regs.D0.toNat)

/-! ### The edge: reset, validity, undefined inputs -/

/-- A step runs the command the ports carry: when `cmd_valid` = 1 and `rst` = 0 and the word on the
ports decodes to `i`, the step is `i` at the same registers, the sample taken. -/
def Obligations.StepRunsDecodedCommand : Prop :=
  ∀ (W : Nat) (r : Regs W) (ps : List (Sample W)) (op : BitVec 2) (d : Word W) (i : Instr),
    decode (commandWord op d) = i →
    step ⟨W, r, Inputs.sample ⟨false, true, op, d⟩ :: ps⟩ = exec i ⟨W, r, ps⟩

/-- R143: the step at each edge is the function the spec writes, for every value of the inputs. -/
def Obligations.StepIsTheSpecsFunction : Prop :=
  ∀ (W : Nat) (r : Regs W) (ps : List (Sample W)) (v : Inputs W),
    step ⟨W, r, v.sample :: ps⟩ = .next ⟨W,
      if v.rst = true then ⟨0#W, 0#W, 0#W, 0#W, 0#W, 0#W⟩
      else if v.valid = false then r
      else if v.op = 0b00#2 then r
      else if v.op = 0b01#2 then r.acc3 v.data
      else if v.op = 0b10#2 then r.acc4 v.data
      else ⟨0#W, 0#W, 0#W, 0#W, 0#W, 0#W⟩, ps⟩

/-- R32: the reset values of the six registers, after reset at every width, at every reset edge and
after CLR. -/
def Obligations.ResetValuesAreZero : Prop :=
  (∀ (W : Nat) (g : Reg), (State.resetAt W).regs.get g = 0#W) ∧
  (∀ g : Reg, State.reset.regs.get g = 0#32) ∧
  (∀ (W : Nat) (r : Regs W) (ps : List (Sample W)) (v : Inputs W), v.rst = true →
    ∃ r' : Regs W, step ⟨W, r, v.sample :: ps⟩ = .next ⟨W, r', ps⟩ ∧ ∀ g, r'.get g = 0#W) ∧
  (∀ (W : Nat) (r : Regs W) (ps : List (Sample W)),
    ∃ r' : Regs W, exec .clr ⟨W, r, ps⟩ = .next ⟨W, r', ps⟩ ∧ ∀ g, r'.get g = 0#W)

/-- R141: reset edges, however many, discard the commands presented at them and give the all-zero
state, and the first command to take effect is the one at the first edge without reset. -/
def Obligations.ResetDiscardsCommands : Prop :=
  ∀ (W : Nat) (r : Regs W) (vs : List (Inputs W)) (c : Inputs W) (ps : List (Sample W)),
    vs ≠ [] → (∀ v ∈ vs, v.rst = true) → c.rst = false → c.valid = true →
    runEdges vs.length ⟨W, r, vs.map Inputs.sample ++ c.sample :: ps⟩ =
      .next ⟨W, Regs.zero W, c.sample :: ps⟩ ∧
    runEdges (vs.length + 1) ⟨W, r, vs.map Inputs.sample ++ c.sample :: ps⟩ =
      exec (decode c.word) ⟨W, Regs.zero W, ps⟩

/-- R58, R103: at an edge with `rst` = 0 and `cmd_valid` = 0 the effect is that of NOP and no
register is written, whatever the command ports hold. -/
def Obligations.NoCommandHoldsRegisters : Prop :=
  ∀ (W : Nat) (r : Regs W) (ps : List (Sample W)) (op : BitVec 2) (d : Word W),
    step ⟨W, r, Inputs.sample ⟨false, false, op, d⟩ :: ps⟩ = .next ⟨W, r, ps⟩ ∧
    step ⟨W, r, Inputs.sample ⟨false, false, op, d⟩ :: ps⟩ = exec .nop ⟨W, r, ps⟩

/-- A reset edge, whatever command is presented with it, and a CLR give the same all-zero state
(70_reset_and_hazards.md, Reset state and boot). -/
def Obligations.ResetAndClrGiveTheSameState : Prop :=
  ∀ (W : Nat) (r : Regs W) (ps : List (Sample W)) (v : Inputs W) (d : Word W),
    v.rst = true →
    step ⟨W, r, v.sample :: ps⟩ = .next ⟨W, Regs.zero W, ps⟩ ∧
    step ⟨W, r, Inputs.sample ⟨false, true, 0b11#2, d⟩ :: ps⟩ = step ⟨W, r, v.sample :: ps⟩

/-- A step stops exactly where the host breaks its duty: never by a fault, and by a refusal exactly
when a port is undefined at the edge (60_exceptions.md, Model outcomes; 93 U3). That every port counts,
and that an edge past the schedule runs, are the model's reading: logs 4 and 3. -/
def Obligations.StepStopsOnlyOnUndefinedInputs : Prop :=
  ∀ s : State,
    (∀ f, step s ≠ .fault f) ∧
    (∀ q, step s = .refused q ↔
      q = .undefinedInput ∧ ∃ p ps, s.presented = p :: ps ∧
        (p.rst = none ∨ p.valid = none ∨ p.op = none ∨ p.data = none))

/-- A host that keeps its duty is never stopped: every run of any length over defined samples has
its next state. Edges past the end of the schedule are the model's choice, log 3. -/
def Obligations.DrivenRunsNeverStop : Prop :=
  ∀ (n : Nat) (s : State), s.driven = true → runsOn (runEdges n s)

/-- The model's choice past the end of the host's schedule (log 3): the registers hold. -/
def Obligations.UnscheduledEdgeHolds : Prop :=
  ∀ (n W : Nat) (r : Regs W), runEdges n ⟨W, r, []⟩ = .next ⟨W, r, []⟩

/-- The model's own presenting of one command word (log 2, log 7): the very next step runs the
command of that word and leaves the host's schedule as it was; a number no command word has is
refused by both. -/
def Obligations.PresentedWordRunsNext : Prop :=
  (∀ (s : State) (nbits w : Nat), w < 2 ^ (2 + s.W) →
    step (s.withFetchWord nbits w) = exec (decode (BitVec.ofNat (2 + s.W) w)) s) ∧
  (∀ (nbits w : Nat) (i : Instr), decodeTableWord nbits w = some i →
    step (State.reset.withFetchWord nbits w) = exec i State.reset) ∧
  (∀ nbits w : Nat, decodeTableWord nbits w = none →
    step (State.reset.withFetchWord nbits w) = .refused .undefinedInput)

/-- A step takes one sample, if one is left (log 3), and writes nothing but the six registers
(10_state.md, Reset values). -/
def Obligations.StepWritesOnlyTheRegisters : Prop :=
  ∀ s t : State, step s = .next t → ∃ r : Regs s.W, t = ⟨s.W, r, s.presented.tail⟩

/-! ### Invariants -/

/-- Every step keeps the three registers of bank 4 equal, from any state in which they are
(40_accumulate.md, the law of bank 4); past the end of the schedule, by the model's choice of log 3. -/
def Obligations.StepKeepsBank4Agreement : Prop :=
  ∀ s t : State, s.bank4Agrees → step s = .next t → t.bank4Agrees

/-- The registers of bank 4 are equal after reset, at every width. -/
def Obligations.ResetHasBank4Agreement : Prop :=
  State.reset.bank4Agrees ∧ ∀ W, (State.resetAt W).bank4Agrees

/-! ### ACC3: the laws of bank 3 -/

/-- R76: the transition table of ACC3, at every position, width and state. -/
def Obligations.Acc3TransitionTable : Prop :=
  ∀ (W : Nat) (r : Regs W) (ps : List (Sample W)) (X : Word W), ∃ r' : Regs W,
    exec (.acc3 X.toNat) ⟨W, r, ps⟩ = .next ⟨W, r', ps⟩ ∧
    ∀ i : Fin W, r'.lane3 i = acc3Table (r.lane3 i) (X.getLsbD i)

/-- R77: `carry` marks the rolls 1 to 2, 3 to 4, 5 to 6 and 7 to 0; `carry2` marks the rolls 3 to 4
and 7 to 0, and those are the positions where T changes. -/
def Obligations.CarriesMarkTheRolls : Prop :=
  ∀ (W : Nat) (r : Regs W) (X : Word W) (i : Fin W),
    ((r.carry X).getLsbD i = true ↔ r.L.getLsbD i = true ∧ X.getLsbD i = true) ∧
    ((r.carry X).getLsbD i = true ↔
      (r.count3 i, (r.acc3 X).count3 i) ∈ [(1, 2), (3, 4), (5, 6), (7, 0)]) ∧
    ((r.carry2 X).getLsbD i = true ↔
      r.L.getLsbD i = true ∧ r.H.getLsbD i = true ∧ X.getLsbD i = true) ∧
    ((r.carry2 X).getLsbD i = true ↔
      (r.count3 i, (r.acc3 X).count3 i) ∈ [(3, 4), (7, 0)]) ∧
    ((r.acc3 X).T.getLsbD i ≠ r.T.getLsbD i ↔
      (r.count3 i, (r.acc3 X).count3 i) ∈ [(3, 4), (7, 0)])

/-- R78: ACC3 with X = 0 changes nothing, and with all ones advances every position by one. -/
def Obligations.Acc3ZeroAndAllOnes : Prop :=
  ∀ (W : Nat) (r : Regs W) (ps : List (Sample W)),
    exec (.acc3 0) ⟨W, r, ps⟩ = .next ⟨W, r, ps⟩ ∧
    ∃ r' : Regs W, exec (.acc3 (2 ^ W - 1)) ⟨W, r, ps⟩ = .next ⟨W, r', ps⟩ ∧
      ∀ i : Fin W, r'.count3 i = (r.count3 i + 1) % 8

/-- R80: the counting law of bank 3. One ACC3 adds X[i] modulo 8; and after a reset or CLR, from any
state, over any edges without another, the bank holds the count of set bits per position. -/
def Obligations.Bank3Counts : Prop :=
  (∀ (W : Nat) (r : Regs W) (X : Word W) (i : Fin W),
    (r.acc3 X).count3 i = (r.count3 i + (X.getLsbD i).toNat) % 8) ∧
  (∀ (W : Nat) (r : Regs W) (pre : List (Inputs W)) (z : Inputs W) (post : List (Inputs W)),
    z.restarts = true → (∀ v ∈ post, v.restarts = false) →
    ∃ r' : Regs W,
      runEdges (pre.length + 1 + post.length) ⟨W, r, (pre ++ z :: post).map Inputs.sample⟩ =
        .next ⟨W, r', []⟩ ∧
      r'.L = (post.filterMap Inputs.element3?).foldl (· ^^^ ·) 0#W ∧
      ∀ i : Fin W,
        r'.L.getLsbD i = (setCount i (post.filterMap Inputs.element3?) % 2 == 1) ∧
        r'.H.getLsbD i = (setCount i (post.filterMap Inputs.element3?) / 2 % 2 == 1) ∧
        r'.T.getLsbD i = (setCount i (post.filterMap Inputs.element3?) / 4 % 2 == 1) ∧
        r'.outputs.res3 i = setCount i (post.filterMap Inputs.element3?) % 4 ∧
        r'.count3 i = setCount i (post.filterMap Inputs.element3?) % 8)

/-- R81: from the all-zero state, ACC3 commands alone reach every bank-3 state, and `k` ACC3 with
X[i] = 1 reach the count `k mod 8` at position `i`. -/
def Obligations.Bank3StatesAllReachable : Prop :=
  (∀ (W : Nat) (l h t : Word W), ∃ xs : List Nat,
    runEdges xs.length ⟨W, Regs.zero W, schedule W (xs.map .acc3)⟩ =
      .next ⟨W, { Regs.zero W with L := l, H := h, T := t }, []⟩) ∧
  (∀ (W k : Nat) (X : Word W), ∃ r' : Regs W,
    runEdges k ⟨W, Regs.zero W, schedule W (List.replicate k (.acc3 X.toNat))⟩ =
      .next ⟨W, r', []⟩ ∧
    ∀ i : Fin W, r'.count3 i = if X.getLsbD i then k % 8 else 0)

/-- The corner cases of ACC3 (40_accumulate.md, ACC3): the same element twice, the counts 3, 4, 7
and 8, and all ones from all ones. -/
def Obligations.Acc3CornerCases : Prop :=
  ∀ (W : Nat) (r : Regs W) (X : Word W),
    ((r.acc3 X).acc3 X).L = r.L ∧
    (X ≠ 0#W → (r.acc3 X).acc3 X ≠ r.acc3 X) ∧
    (∀ i : Fin W, X.getLsbD i = true →
      ((r.acc3 X).acc3 X).count3 i = (r.count3 i + 2) % 8 ∧
      (r.count3 i = 2 → (r.acc3 X).lane3 i = (false, true, true)) ∧
      (r.count3 i = 3 → (r.acc3 X).lane3 i = (true, false, false)) ∧
      (r.count3 i = 6 → (r.acc3 X).lane3 i = (true, true, true)) ∧
      (r.count3 i = 7 → (r.acc3 X).lane3 i = (false, false, false))) ∧
    (r.bank3 = (BitVec.allOnes W, BitVec.allOnes W, BitVec.allOnes W) →
      (r.acc3 (BitVec.allOnes W)).bank3 = (0#W, 0#W, 0#W))

/-- R83: the state after a set of ACC3 commands does not depend on their order. -/
def Obligations.Acc3OrderDoesNotMatter : Prop :=
  ∀ (W : Nat) (r : Regs W) (xs ys : List Nat), xs.Perm ys → ∃ r' : Regs W,
    runEdges xs.length ⟨W, r, schedule W (xs.map .acc3)⟩ = .next ⟨W, r', []⟩ ∧
    runEdges ys.length ⟨W, r, schedule W (ys.map .acc3)⟩ = .next ⟨W, r', []⟩

/-- R84: after a reset or CLR, `(low, high)` is the exact count of a position whose count is at
most 3, and the count modulo 4 of any other. -/
def Obligations.LowHighEncodesTheCount : Prop :=
  ∀ (W : Nat) (r : Regs W) (pre : List (Inputs W)) (z : Inputs W) (post : List (Inputs W)),
    z.restarts = true → (∀ v ∈ post, v.restarts = false) →
    ∃ r' : Regs W,
      runEdges (pre.length + 1 + post.length) ⟨W, r, (pre ++ z :: post).map Inputs.sample⟩ =
        .next ⟨W, r', []⟩ ∧
      ∀ i : Fin W,
        (setCount i (post.filterMap Inputs.element3?) ≤ 3 →
          r'.outputs.res3 i = setCount i (post.filterMap Inputs.element3?)) ∧
        (4 ≤ setCount i (post.filterMap Inputs.element3?) →
          r'.outputs.res3 i = setCount i (post.filterMap Inputs.element3?) % 4)

/-! ### ACC4: the laws of bank 4 -/

/-- R86: the transition table of ACC4, at every position, width and state. -/
def Obligations.Acc4TransitionTable : Prop :=
  ∀ (W : Nat) (r : Regs W) (ps : List (Sample W)) (X : Word W), ∃ r' : Regs W,
    exec (.acc4 X.toNat) ⟨W, r, ps⟩ = .next ⟨W, r', ps⟩ ∧
    ∀ i : Fin W, r'.lane4 i = acc4Table (r.lane4 i) (X.getLsbD i)

/-- R87: the closed form of ACC4, and what it says of each position. -/
def Obligations.Acc4ClosedForm : Prop :=
  ∀ (W : Nat) (r : Regs W) (X : Word W),
    (r.acc4 X).D0 =
      (X &&& ~~~(r.D0 ||| r.D1 ||| r.D2)) ||| (~~~X &&& (r.D0 &&& ~~~r.D1 &&& ~~~r.D2)) ∧
    (r.acc4 X).D1 =
      (X &&& ~~~(r.D0 ||| r.D1 ||| r.D2)) ||| (~~~X &&& (r.D1 &&& ~~~r.D0 &&& ~~~r.D2)) ∧
    (r.acc4 X).D2 =
      (X &&& ~~~(r.D0 ||| r.D1 ||| r.D2)) ||| (~~~X &&& (r.D2 &&& ~~~r.D0 &&& ~~~r.D1)) ∧
    ∀ i : Fin W,
      (X.getLsbD i = true → (r.acc4 X).lane4 i =
        if r.lane4 i = (false, false, false) then (true, true, true) else (false, false, false)) ∧
      (X.getLsbD i = false → (r.acc4 X).lane4 i =
        if r.lane4 i ∈ [(false, false, false), (true, false, false), (false, true, false),
            (false, false, true)]
        then r.lane4 i else (false, false, false))

/-- R88: ACC4 is not a one-hot residue counter. After one set bit at position 0 three registers
show a 1 there, the position has no residue, and a second set bit brings it back to zero. -/
def Obligations.Acc4IsNotOneHot : Prop :=
  ∀ (W : Nat) (h : 0 < W), ∃ r₁ r₂ : Regs W,
    exec (.acc4 1) (State.resetAt W) = .next ⟨W, r₁, []⟩ ∧
    r₁.lane4 ⟨0, h⟩ = (true, true, true) ∧
    setCount ⟨0, h⟩ [BitVec.ofNat W 1] = 1 ∧ r₁.outputs.res4 ⟨0, h⟩ = none ∧
    exec (.acc4 1) ⟨W, r₁, []⟩ = .next ⟨W, r₂, []⟩ ∧
    r₂ = Regs.zero W ∧
    setCount ⟨0, h⟩ [BitVec.ofNat W 1, BitVec.ofNat W 1] = 2 ∧ r₂.outputs.res4 ⟨0, h⟩ = some 0

/-- R89: the law of bank 4. One ACC4 from equal registers gives `X & ~D`; after a reset or CLR, from
any state, over any edges without another, the three registers are equal and a bit is set exactly
when the last element has it set and the run of such elements ending there is odd. -/
def Obligations.Bank4TracksTrailingRuns : Prop :=
  (∀ (W : Nat) (r : Regs W) (X : Word W), r.D0 = r.D1 → r.D1 = r.D2 →
    (r.acc4 X).bank4 = (X &&& ~~~r.D0, X &&& ~~~r.D0, X &&& ~~~r.D0)) ∧
  (∀ (W : Nat) (r : Regs W) (pre : List (Inputs W)) (z : Inputs W) (post : List (Inputs W)),
    z.restarts = true → (∀ v ∈ post, v.restarts = false) →
    ∃ r' : Regs W,
      runEdges (pre.length + 1 + post.length) ⟨W, r, (pre ++ z :: post).map Inputs.sample⟩ =
        .next ⟨W, r', []⟩ ∧
      r'.D0 = r'.D1 ∧ r'.D1 = r'.D2 ∧
      ∀ i : Fin W,
        (r'.D0.getLsbD i = true ↔
          (∃ x, (post.filterMap Inputs.element4?).getLast? = some x ∧ x.getLsbD i = true) ∧
          trailingRun i (post.filterMap Inputs.element4?) % 2 = 1) ∧
        (r'.lane4 i = (false, false, false) ∨ r'.lane4 i = (true, true, true)))

/-- The corner cases of ACC4 (40_accumulate.md, ACC4): X = 0 from equal registers, the same element
twice from zero, and all ones twice from zero. -/
def Obligations.Acc4CornerCases : Prop :=
  ∀ (W : Nat) (r : Regs W) (X : Word W),
    (r.D0 = r.D1 → r.D1 = r.D2 → (r.acc4 0#W).bank4 = (0#W, 0#W, 0#W)) ∧
    ((Regs.zero W).acc4 X).bank4 = (X, X, X) ∧
    (((Regs.zero W).acc4 X).acc4 X).bank4 = (0#W, 0#W, 0#W) ∧
    ((Regs.zero W).acc4 (BitVec.allOnes W)).bank4 =
      (BitVec.allOnes W, BitVec.allOnes W, BitVec.allOnes W) ∧
    (((Regs.zero W).acc4 (BitVec.allOnes W)).acc4 (BitVec.allOnes W)).bank4 = (0#W, 0#W, 0#W)

/-- R91: the bank-4 state depends on the order of ACC4 commands. -/
def Obligations.Acc4OrderMatters : Prop :=
  ∀ (W : Nat) (h : 0 < W), ∃ r₁ r₂ : Regs W,
    runEdges 2 ⟨W, Regs.zero W, schedule W [.acc4 1, .acc4 0]⟩ = .next ⟨W, r₁, []⟩ ∧
    r₁.bank4 = (0#W, 0#W, 0#W) ∧
    runEdges 2 ⟨W, Regs.zero W, schedule W [.acc4 0, .acc4 1]⟩ = .next ⟨W, r₂, []⟩ ∧
    r₂.lane4 ⟨0, h⟩ = (true, true, true)

/-! ### Banks, lanes and the outputs -/

/-- R21, R22: which edges can change each bank, that each bank's next value does not depend on the
other bank, and which outputs show it. -/
def Obligations.BanksAreWrittenAndReadApart : Prop :=
  ∀ (W : Nat) (r q : Regs W) (ps : List (Sample W)) (v : Inputs W), ∃ r' q' : Regs W,
    step ⟨W, r, v.sample :: ps⟩ = .next ⟨W, r', ps⟩ ∧
    step ⟨W, q, v.sample :: ps⟩ = .next ⟨W, q', ps⟩ ∧
    (r'.bank3 ≠ r.bank3 → v.rst = true ∨ (v.valid = true ∧ (v.op = 0b01#2 ∨ v.op = 0b11#2))) ∧
    (r'.bank4 ≠ r.bank4 → v.rst = true ∨ (v.valid = true ∧ (v.op = 0b10#2 ∨ v.op = 0b11#2))) ∧
    (r.bank3 = q.bank3 → r'.bank3 = q'.bank3) ∧
    (r.bank4 = q.bank4 → r'.bank4 = q'.bank4) ∧
    (r.outputs.qLow, r.outputs.qHigh, r.outputs.qThird) = r.bank3 ∧
    (r.outputs.qD0, r.outputs.qD1, r.outputs.qD2) = r.bank4

/-- R92: an ACC3 and an ACC4 commute; interleaved commands leave each bank as if its own had run
alone in their order; NOP leaves both banks unchanged. -/
def Obligations.BanksAreIndependent : Prop :=
  (∀ (W : Nat) (r : Regs W) (x y : Nat), ∃ r' : Regs W,
    runEdges 2 ⟨W, r, schedule W [.acc3 x, .acc4 y]⟩ = .next ⟨W, r', []⟩ ∧
    runEdges 2 ⟨W, r, schedule W [.acc4 y, .acc3 x]⟩ = .next ⟨W, r', []⟩) ∧
  (∀ (W : Nat) (r : Regs W) (is : List Instr), (∀ i ∈ is, i ≠ .clr) → ∃ r' a b : Regs W,
    runEdges is.length ⟨W, r, schedule W is⟩ = .next ⟨W, r', []⟩ ∧
    runEdges (is.filter (·.opcode == 0b01#2)).length
      ⟨W, r, schedule W (is.filter (·.opcode == 0b01#2))⟩ = .next ⟨W, a, []⟩ ∧
    runEdges (is.filter (·.opcode == 0b10#2)).length
      ⟨W, r, schedule W (is.filter (·.opcode == 0b10#2))⟩ = .next ⟨W, b, []⟩ ∧
    r'.bank3 = a.bank3 ∧ r'.bank4 = b.bank4) ∧
  (∀ (W : Nat) (r : Regs W), runEdges 1 ⟨W, r, schedule W [.nop]⟩ = .next ⟨W, r, []⟩)

/-- No value moves between lanes: after any edge, a position of the registers depends only on that
position of the registers and of the element (40_accumulate.md, Laws common to the family). -/
def Obligations.LanesAreIndependent : Prop :=
  ∀ (W : Nat) (r q : Regs W) (ps : List (Sample W)) (v u : Inputs W) (i : Fin W),
    r.lane3 i = q.lane3 i → r.lane4 i = q.lane4 i →
    v.rst = u.rst → v.valid = u.valid → v.op = u.op → v.data.getLsbD i = u.data.getLsbD i →
    ∃ r' q' : Regs W,
      step ⟨W, r, v.sample :: ps⟩ = .next ⟨W, r', ps⟩ ∧
      step ⟨W, q, u.sample :: ps⟩ = .next ⟨W, q', ps⟩ ∧
      r'.lane3 i = q'.lane3 i ∧ r'.lane4 i = q'.lane4 i

/-- R95: the two residue decodes of the outputs; a position with two or three bits of bank 4 set
has no residue: the refusal of the decode is written `none`, log 9. -/
def Obligations.ResidueDecodes : Prop :=
  (∀ (W : Nat) (r : Regs W) (i : Fin W),
    r.outputs.res3 i = 2 * (r.H.getLsbD i).toNat + (r.L.getLsbD i).toNat ∧
    r.outputs.res3 i ≤ 3 ∧
    (r.lane4 i = (false, false, false) ↔ r.outputs.res4 i = some 0) ∧
    (r.lane4 i = (true, false, false) ↔ r.outputs.res4 i = some 1) ∧
    (r.lane4 i = (false, true, false) ↔ r.outputs.res4 i = some 2) ∧
    (r.lane4 i = (false, false, true) ↔ r.outputs.res4 i = some 3) ∧
    (2 ≤ (r.D0.getLsbD i).toNat + (r.D1.getLsbD i).toNat + (r.D2.getLsbD i).toNat ↔
      r.outputs.res4 i = none)) ∧
  (∀ (W : Nat) (r : Regs W) (pre : List (Inputs W)) (z : Inputs W) (post : List (Inputs W)),
    z.restarts = true → (∀ v ∈ post, v.restarts = false) →
    ∃ r' : Regs W,
      runEdges (pre.length + 1 + post.length) ⟨W, r, (pre ++ z :: post).map Inputs.sample⟩ =
        .next ⟨W, r', []⟩ ∧
      ∀ i : Fin W,
        r'.outputs.res3 i = setCount i (post.filterMap Inputs.element3?) % 4 ∧
        (r'.outputs.res3 i = setCount i (post.filterMap Inputs.element3?) ↔
          setCount i (post.filterMap Inputs.element3?) ≤ 3))

/-- R148: presenting anything leaves the outputs of the same cycle as they are, and the effect of
an edge is on the outputs from after that edge. -/
def Obligations.OutputsChangeOnlyAtEdges : Prop :=
  (∀ (s : State) (ps : List (Sample s.W)), (s.setPresented ps).outputs = s.outputs) ∧
  (∀ (W : Nat) (r : Regs W) (ps : List (Sample W)) (v : Inputs W), ∃ r' : Regs W,
    step ⟨W, r, v.sample :: ps⟩ = .next ⟨W, r', ps⟩ ∧
    State.outputs ⟨W, r', ps⟩ = ⟨(r.edge v).L, (r.edge v).H, (r.edge v).T,
      (r.edge v).D0, (r.edge v).D1, (r.edge v).D2⟩)

/-! ### Runs -/

/-- R102: the command after a CLR reads the all-zero registers. -/
def Obligations.CommandAfterClr : Prop :=
  ∀ (W : Nat) (r : Regs W) (X : Word W),
    runEdges 2 ⟨W, r, schedule W [.clr, .acc3 X.toNat]⟩ =
      .next ⟨W, { Regs.zero W with L := X }, []⟩ ∧
    runEdges 2 ⟨W, r, schedule W [.clr, .acc4 X.toNat]⟩ =
      .next ⟨W, { Regs.zero W with D0 := X, D1 := X, D2 := X }, []⟩

/-- R144: the transaction view. The state after any edges is the left fold of the command rules
over the valid commands presented after the last reset edge, from zero, or from the registers as
they were if there was no reset. -/
def Obligations.TransactionView : Prop :=
  ∀ (W : Nat) (r : Regs W) (vs : List (Inputs W)),
    runEdges vs.length ⟨W, r, vs.map Inputs.sample⟩ =
      .next ⟨W, (foldStart r vs).run (transactions vs), []⟩

/-- A host that samples the outputs after every edge sees every intermediate state
(60_exceptions.md, debug and trace). -/
def Obligations.TraceShowsEveryState : Prop :=
  ∀ (W : Nat) (r : Regs W) (vs : List (Inputs W)) (k : Nat), k < vs.length → ∃ r' : Regs W,
    runEdges (k + 1) ⟨W, r, vs.map Inputs.sample⟩ =
      .next ⟨W, r', (vs.drop (k + 1)).map Inputs.sample⟩ ∧
    (r.trace vs)[k]? = some r'.outputs

/-- After a reset or CLR the result does not depend on what the registers held before, such as the
draws of a power-on (70_reset_and_hazards.md, Reset state and boot). -/
def Obligations.RestartForgetsThePast : Prop :=
  ∀ (W : Nat) (r q : Regs W) (pre : List (Inputs W)) (z : Inputs W) (post : List (Inputs W)),
    z.restarts = true → ∃ r' : Regs W,
      runEdges (pre.length + 1 + post.length) ⟨W, r, (pre ++ z :: post).map Inputs.sample⟩ =
        .next ⟨W, r', []⟩ ∧
      runEdges (pre.length + 1 + post.length) ⟨W, q, (pre ++ z :: post).map Inputs.sample⟩ =
        .next ⟨W, r', []⟩

/-- A run without reset (95 P5): an ACC3 before the first reset acts on the drawn values by the
ordinary rules, whatever the draws are. The draws are free values, log 5. -/
def Obligations.CommandBeforeResetActsOnDraws : Prop :=
  ∀ k W : Nat, exec (.acc3 1) (State.powerOn k W) = .next ⟨W,
    { L := Config.preResetDraw k W .L ^^^ 1#W
      H := Config.preResetDraw k W .H ^^^ (Config.preResetDraw k W .L &&& 1#W)
      T := Config.preResetDraw k W .T ^^^
        (Config.preResetDraw k W .H &&& (Config.preResetDraw k W .L &&& 1#W))
      D0 := Config.preResetDraw k W .D0
      D1 := Config.preResetDraw k W .D1
      D2 := Config.preResetDraw k W .D2 }, []⟩

/-! ### The assembler -/

/-- R62: a literal is encoded as its value modulo `2^W`, the two's-complement pattern for a negative
value, and an out-of-range literal is reduced. -/
def Obligations.LiteralsAreReduced : Prop :=
  ∀ (W : Nat) (v : Int),
    literalData W v < 2 ^ W ∧ (literalData W v : Int) = v % (2 ^ W : Int) ∧
    BitVec.ofNat W (literalData W v) = BitVec.ofInt W v ∧
    (dataField (encode W (.acc3 (literalData W v)))).toNat = literalData W v ∧
    (dataField (encode W (.acc4 (literalData W v)))).toNat = literalData W v

/-- R63: TALLY3 is CLR and one ACC3 per element; from any state its `n + 1` edges leave the counts
of the elements, and with no element all registers zero. -/
def Obligations.Tally3CountsItsElements : Prop :=
  ∀ (W : Nat) (r : Regs W) (vs : List Int),
    Stmt.expand W (.tally3 vs) = .clr :: vs.map (fun v => .acc3 (literalData W v)) ∧
    ∃ r' : Regs W,
      runEdges (vs.length + 1) ⟨W, r, schedule W (Stmt.expand W (.tally3 vs))⟩ =
        .next ⟨W, r', []⟩ ∧
      r'.outputs.tallyMod3 = (r'.L, r'.H) ∧ r'.outputs.qThird = r'.T ∧
      (∀ i : Fin W, r'.count3 i = setCount i (vs.map (BitVec.ofInt W)) % 8) ∧
      r'.bank4 = (0#W, 0#W, 0#W) ∧
      (vs = [] → r' = Regs.zero W)

/-- R64: TALLY4 is CLR and one ACC4 per element, in order; from any state its edges leave bank 4 at
the trailing runs of the elements, and with no element all registers zero. -/
def Obligations.Tally4TracksItsElements : Prop :=
  ∀ (W : Nat) (r : Regs W) (vs : List Int),
    Stmt.expand W (.tally4 vs) = .clr :: vs.map (fun v => .acc4 (literalData W v)) ∧
    ∃ r' : Regs W,
      runEdges (vs.length + 1) ⟨W, r, schedule W (Stmt.expand W (.tally4 vs))⟩ =
        .next ⟨W, r', []⟩ ∧
      r'.outputs.tallyMod4 = (r'.D0, r'.D1, r'.D2) ∧
      (∀ i : Fin W,
        r'.D0.getLsbD i = (trailingRun i (vs.map (BitVec.ofInt W)) % 2 == 1) ∧
        r'.D1.getLsbD i = r'.D0.getLsbD i ∧ r'.D2.getLsbD i = r'.D0.getLsbD i) ∧
      r'.bank3 = (0#W, 0#W, 0#W) ∧
      (vs = [] → r' = Regs.zero W)

/-- R65: `.width` emits no command; a program with a `.width` other than the target's is refused;
one without the directive is never refused for its width. -/
def Obligations.WidthDirectiveIsEnforced : Prop :=
  ∀ (W k : Nat) (ls : List (List Char)),
    (∀ n, Stmt.expand W (.width n) = []) ∧
    (∀ l ∈ ls, ∀ n, line? l = some (some (.width n)) → n ≠ W →
      ∃ e, assembleLines W k ls = .error e) ∧
    ((∀ l ∈ ls, ∀ n, line? l ≠ some (some (.width n))) →
      ∀ j, assembleLines W k ls ≠ .error (.widthMismatch j))

/-- A program assembles line after line in text order, and every statement but a directive or a
pseudo-operation is exactly one command (30_encoding.md, Assembler syntax). -/
def Obligations.ProgramsAssembleInTextOrder : Prop :=
  (∀ (W k : Nat) (ls ls' : List (List Char)) (is is' : List Instr),
    assembleLines W k ls = .ok is → assembleLines W (k + ls.length) ls' = .ok is' →
    assembleLines W k (ls ++ ls') = .ok (is ++ is')) ∧
  (∀ (W : Nat) (v : Int),
    (Stmt.expand W .nop).length = 1 ∧ (Stmt.expand W .clr).length = 1 ∧
    (Stmt.expand W (.acc3 v)).length = 1 ∧ (Stmt.expand W (.acc4 v)).length = 1)

/-- Disassembling any word and assembling the text gives the canonical word of the same command
(30_encoding.md, Assembler syntax and Disassembly; log 8 for the case of the digits). -/
def Obligations.AssemblerReadsTheDisassembly : Prop :=
  ∀ (W : Nat) (cw : CommandWord W), 1 ≤ W →
    assemble W (disassemble cw) = .ok [encode W (decode cw)]
end

