-- ==== Sys2Proof/Laws/State.lean ====
section
/-! SUPPORT. What each update of the state and of the registers leaves in each field. -/

namespace Sys2Proof.Machine

variable {W : Nat}

@[simp] theorem State.setRegs_W (s : State) (r : Regs s.W) : (s.setRegs r).W = s.W := rfl
@[simp] theorem State.setRegs_regs (s : State) (r : Regs s.W) : (s.setRegs r).regs = r := rfl
@[simp] theorem State.setRegs_presented (s : State) (r : Regs s.W) :
    (s.setRegs r).presented = s.presented := rfl
@[simp] theorem State.setRegs_mk (r q : Regs W) (ps : List (Sample W)) :
    (State.mk W r ps).setRegs q = ⟨W, q, ps⟩ := rfl

@[simp] theorem State.setPresented_W (s : State) (ps : List (Sample s.W)) :
    (s.setPresented ps).W = s.W := rfl
@[simp] theorem State.setPresented_regs (s : State) (ps : List (Sample s.W)) :
    (s.setPresented ps).regs = s.regs := rfl
@[simp] theorem State.setPresented_presented (s : State) (ps : List (Sample s.W)) :
    (s.setPresented ps).presented = ps := rfl
@[simp] theorem State.setPresented_mk (r : Regs W) (ps qs : List (Sample W)) :
    (State.mk W r ps).setPresented qs = ⟨W, r, qs⟩ := rfl

@[simp] theorem State.resetEdge_mk (r : Regs W) (ps : List (Sample W)) :
    (State.mk W r ps).resetEdge = ⟨W, Regs.zero W, ps⟩ := rfl

@[simp] theorem Regs.zero_L : (Regs.zero W).L = 0#W := rfl
@[simp] theorem Regs.zero_H : (Regs.zero W).H = 0#W := rfl
@[simp] theorem Regs.zero_T : (Regs.zero W).T = 0#W := rfl
@[simp] theorem Regs.zero_D0 : (Regs.zero W).D0 = 0#W := rfl
@[simp] theorem Regs.zero_D1 : (Regs.zero W).D1 = 0#W := rfl
@[simp] theorem Regs.zero_D2 : (Regs.zero W).D2 = 0#W := rfl

@[simp] theorem Regs.clear_eq_zero (r : Regs W) : r.clear = Regs.zero W := rfl

@[simp] theorem Regs.acc3_L (r : Regs W) (X : Word W) : (r.acc3 X).L = r.L ^^^ X := rfl
@[simp] theorem Regs.acc3_H (r : Regs W) (X : Word W) : (r.acc3 X).H = r.H ^^^ r.carry X := rfl
@[simp] theorem Regs.acc3_T (r : Regs W) (X : Word W) : (r.acc3 X).T = r.T ^^^ r.carry2 X := rfl
@[simp] theorem Regs.acc3_D0 (r : Regs W) (X : Word W) : (r.acc3 X).D0 = r.D0 := rfl
@[simp] theorem Regs.acc3_D1 (r : Regs W) (X : Word W) : (r.acc3 X).D1 = r.D1 := rfl
@[simp] theorem Regs.acc3_D2 (r : Regs W) (X : Word W) : (r.acc3 X).D2 = r.D2 := rfl

@[simp] theorem Regs.acc4_L (r : Regs W) (X : Word W) : (r.acc4 X).L = r.L := rfl
@[simp] theorem Regs.acc4_H (r : Regs W) (X : Word W) : (r.acc4 X).H = r.H := rfl
@[simp] theorem Regs.acc4_T (r : Regs W) (X : Word W) : (r.acc4 X).T = r.T := rfl
@[simp] theorem Regs.acc4_D0 (r : Regs W) (X : Word W) :
    (r.acc4 X).D0 = ~~~r.D1 &&& ~~~r.D2 &&& (r.D0 ^^^ X) := rfl
@[simp] theorem Regs.acc4_D1 (r : Regs W) (X : Word W) :
    (r.acc4 X).D1 = ~~~r.D0 &&& ~~~r.D2 &&& (r.D1 ^^^ X) := rfl
@[simp] theorem Regs.acc4_D2 (r : Regs W) (X : Word W) :
    (r.acc4 X).D2 = ~~~r.D0 &&& ~~~r.D1 &&& (r.D2 ^^^ X) := rfl

/-- Two register states are equal when each register is. -/
theorem Regs.eq_of_get {r q : Regs W} (h : ∀ g, r.get g = q.get g) : r = q := by
  obtain ⟨L, H, T, D0, D1, D2⟩ := r
  have hL := h .L
  have hH := h .H
  have hT := h .T
  have h0 := h .D0
  have h1 := h .D1
  have h2 := h .D2
  simp only [Regs.get] at hL hH hT h0 h1 h2
  subst hL hH hT h0 h1 h2
  rfl

end Sys2Proof.Machine
end

