-- ==== Sys2Proof/Laws/Ops.lean ====
section
/-! SUPPORT. What the shared operations over command words, ports and edges can do. -/

namespace Sys2Proof

/-- `data` is read back from a command word put together. -/
@[simp] theorem dataField_commandWord {W : Nat} (op : BitVec 2) (d : Word W) :
    dataField (commandWord op d) = d := by
  simp [dataField, commandWord, BitVec.setWidth_append]

/-- `op` is read back from a command word put together. -/
@[simp] theorem opField_commandWord {W : Nat} (op : BitVec 2) (d : Word W) :
    opField (commandWord op d) = op := by
  apply BitVec.eq_of_getLsbD_eq
  intro i hi
  simp [opField, commandWord, BitVec.getLsbD_append, hi]

/-- A command word is its two fields put together. -/
theorem commandWord_fields {W : Nat} (cw : CommandWord W) :
    commandWord (opField cw) (dataField cw) = cw := by
  apply BitVec.eq_of_getLsbD_eq
  intro i hi
  by_cases h : i < W
  · simp [opField, dataField, commandWord, BitVec.getLsbD_append, h]
  · have hw : W + (i - W) = i := by omega
    have h2 : i - W < 2 := by omega
    simp [opField, dataField, commandWord, BitVec.getLsbD_append, h, hw, h2]

/-- A two-bit value is one of the four codes. -/
theorem opcode_cases (op : BitVec 2) : op = 0#2 ∨ op = 1#2 ∨ op = 2#2 ∨ op = 3#2 := by
  revert op
  decide

namespace Machine

variable {W : Nat}

/-- Ports that are all defined carry their values. -/
@[simp] theorem Inputs.inputs?_sample (v : Inputs W) : v.sample.inputs? = some v := rfl

/-- The ports on which a command word is presented carry it. -/
@[simp] theorem Inputs.word_ofWord (cw : CommandWord W) : (Inputs.ofWord cw).word = cw :=
  commandWord_fields cw

/-- A sample's values exist exactly when the sample is that of defined ports. -/
theorem Sample.inputs?_eq_some {p : Sample W} {v : Inputs W} (h : p.inputs? = some v) :
    p = v.sample := by
  obtain ⟨rst, valid, op, data⟩ := p
  cases rst <;> cases valid <;> cases op <;> cases data <;> simp [Sample.inputs?] at h
  subst h
  rfl

/-- The operand is `data`, when the element is the value of `data`. -/
@[simp] theorem operandX_toNat (X : Word W) : operandX W X.toNat = X := by
  simp [operandX]

/-- Every command has a next state, in which only the registers may differ. -/
theorem exec_next (i : Instr) (s : State) : ∃ r : Regs s.W, exec i s = .next (s.setRegs r) := by
  cases i with
  | nop => exact ⟨s.regs, rfl⟩
  | acc3 x => exact ⟨_, rfl⟩
  | acc4 x => exact ⟨_, rfl⟩
  | clr => exact ⟨_, rfl⟩

/-- All that an edge with defined ports can do: reset, run the decoded command, or hold. -/
theorem applyInputs_cases (s : State) (v : Inputs s.W) :
    (v.rst = true ∧ applyInputs s v = .next s.resetEdge) ∨
    (v.rst = false ∧ v.valid = true ∧ applyInputs s v = exec (decode v.word) s) ∨
    (v.rst = false ∧ v.valid = false ∧ applyInputs s v = .next s) := by
  cases hr : v.rst <;> cases hv : v.valid <;> simp [applyInputs, hr, hv]

/-- All that an edge can do: the ports are defined and it acts on their values, or it is refused. -/
theorem edge_cases (s : State) (p : Sample s.W) :
    (∃ v, p.inputs? = some v ∧ edge s p = applyInputs s v) ∨
    (p.inputs? = none ∧ edge s p = .refused .undefinedInput) := by
  cases h : p.inputs? with
  | none => exact .inr ⟨rfl, by simp [edge, h]⟩
  | some v => exact .inl ⟨v, rfl, by simp [edge, h]⟩

/-- An edge on defined ports acts on their values. -/
@[simp] theorem edge_sample (r : Regs W) (ps : List (Sample W)) (v : Inputs W) :
    edge ⟨W, r, ps⟩ v.sample = applyInputs ⟨W, r, ps⟩ v := rfl

end Machine

end Sys2Proof
end

