-- ==== Sys2Proof/Laws/PerInstr.lean ====
section
/-! SUPPORT. Statements about every command, one lemma per constructor. -/

namespace Sys2Proof.Laws

/-- The fields of an encoded command are its code and its element reduced to the width (R55, R62). -/
def EncodesItsFields.Statement (i : Instr) : Prop :=
  ∀ W, opField (encode W i) = i.opcode ∧ dataField (encode W i) = BitVec.ofNat W i.element

theorem EncodesItsFields.nop : EncodesItsFields.Statement .nop := fun _ =>
  ⟨opField_commandWord _ _, dataField_commandWord _ _⟩

theorem EncodesItsFields.acc3 (x : Nat) : EncodesItsFields.Statement (.acc3 x) := fun _ =>
  ⟨opField_commandWord _ _, dataField_commandWord _ _⟩

theorem EncodesItsFields.acc4 (x : Nat) : EncodesItsFields.Statement (.acc4 x) := fun _ =>
  ⟨opField_commandWord _ _, dataField_commandWord _ _⟩

theorem EncodesItsFields.clr : EncodesItsFields.Statement .clr := fun _ =>
  ⟨opField_commandWord _ _, dataField_commandWord _ _⟩

end Sys2Proof.Laws
end

