-- ==== Sys2Proof/Laws/Step.lean ====
section
/-! SUPPORT. One unfolding of the step and of a run, so that no proof needs another. -/

namespace Sys2Proof.Machine

variable {W : Nat}

@[simp] theorem step_nil (r : Regs W) : step ⟨W, r, []⟩ = .next ⟨W, r, []⟩ := rfl

@[simp] theorem step_cons (r : Regs W) (p : Sample W) (ps : List (Sample W)) :
    step ⟨W, r, p :: ps⟩ = edge ⟨W, r, ps⟩ p := rfl

@[simp] theorem runEdges_zero (s : State) : runEdges 0 s = .next s := rfl

/-- A run of one more edge whose first step has a next state. -/
theorem runEdges_succ {n : Nat} {s t : State} (h : step s = .next t) :
    runEdges (n + 1) s = runEdges n t := by
  show Host.Core.run core (n + 1) s = _
  have h' : core.step s = .next t := h
  simp only [Host.Core.run, h']
  rfl

/-- Edges run in two parts, the first ending in a next state. -/
theorem runEdges_add {m n : Nat} {s t : State} (h : runEdges m s = .next t) :
    runEdges (m + n) s = runEdges n t := by
  induction m generalizing s with
  | zero =>
    obtain rfl : s = t := by simpa using h
    simp
  | succ m ih =>
    have hs : m + 1 + n = (m + n) + 1 := by omega
    rw [hs]
    cases hc : step s with
    | next u =>
      rw [runEdges_succ hc] at h ⊢
      exact ih h
    | fault f => cases f
    | refused q =>
      have h' : core.step s = .refused q := hc
      simp only [runEdges, Host.Core.run, h'] at h
      cases h

end Sys2Proof.Machine
end

