-- ==== Sys2Proof/Tests/Slice0.lean ====
section
/-! SUPPORT. Tests: the well-formedness smoke tests, the spec's written-out words and vectors
(95_test_vectors.md), and a witness for the hypotheses of each statement. -/

namespace Sys2Proof.Tests

open Sys2Proof.Machine

/-- Six 32-bit registers `L H T | D0 D1 D2`, as the spec writes its vectors. -/
def regs32 (l h t d0 d1 d2 : Nat) : Regs 32 :=
  { L := BitVec.ofNat 32 l, H := BitVec.ofNat 32 h, T := BitVec.ofNat 32 t
    D0 := BitVec.ofNat 32 d0, D1 := BitVec.ofNat 32 d1, D2 := BitVec.ofNat 32 d2 }

/-- A 32-bit block at whose next edge the ports carry these values. -/
def at32 (r : Regs 32) (rst valid : Bool) (op : BitVec 2) (data : Nat) : State :=
  ⟨32, r, [Inputs.sample ⟨rst, valid, op, BitVec.ofNat 32 data⟩]⟩

/-- A 32-bit block with nothing scheduled. -/
def after32 (r : Regs 32) : State := ⟨32, r, []⟩

/-! ### Well-formedness: each check refuses an ill-formed command -/

theorem test_wf_refuses_width_zero :
    Instr.nop.wf 0 = false ∧ (Instr.acc3 0).wf 0 = false ∧ (Instr.acc4 0).wf 0 = false ∧
      Instr.clr.wf 0 = false := by decide

theorem test_wf_refuses_wide_element :
    (Instr.acc3 0x100000000).wf 32 = false ∧ (Instr.acc4 0x100000000).wf 32 = false ∧
      (Instr.acc3 0xFFFFFFFF).wf 32 = true := by decide

/-! ### Decoding: words written out from R55 and R56 (E1 to E4, E7, E8) -/

theorem test_decode_nop : decode (W := 32) 0b0000000000000000000000000000000000#34 = .nop := by
  decide

theorem test_decode_acc3 :
    decode (W := 32) 0b0100000000000000000000000000001011#34 = .acc3 11 := by decide

theorem test_decode_acc4 :
    decode (W := 32) 0b1000000000000000000000000000001011#34 = .acc4 11 := by decide

theorem test_decode_clr : decode (W := 32) 0b1100000000000000000000000000000000#34 = .clr := by
  decide

theorem test_decode_noncanonical :
    decode (W := 32) 0x300001234#34 = .clr ∧ decode (W := 32) 0x00000FFFF#34 = .nop := by decide

theorem test_decode_table_word :
    decodeTableWord 40 0x1FFFFFFFF = some (.acc3 0xFFFFFFFF) ∧
      decodeTableWord 40 0x400000000 = none := by decide

/-- At W = 8, `ACC3 0x1FF` is the 10-bit word 0x1FF (30_encoding.md, examples of file 95). -/
theorem test_encode_at_width_8 : encode 8 (.acc3 0x1FF) = 0x1FF#10 := by decide

/-! ### Single steps: vectors of file 95 -/

theorem test_acc3_v4 :
    step (at32 (regs32 5 3 0 0 0 0) false true 0b01#2 6) = .next (after32 (regs32 3 7 0 0 0 0)) := by
  rfl

theorem test_acc3_v8_wraps :
    step (at32 (regs32 0xFFFFFFFF 0xFFFFFFFF 0xFFFFFFFF 1 2 4) false true 0b01#2 0xFFFFFFFF) =
      .next (after32 (regs32 0 0 0 1 2 4)) := by rfl

theorem test_acc4_v17 :
    step (at32 (regs32 0x29 0x1C 3 1 2 4) false true 0b10#2 0xF) =
      .next (after32 (regs32 0x29 0x1C 3 8 8 8)) := by rfl

theorem test_acc4_v18 :
    step (at32 (regs32 0 0 0 3 6 5) false true 0b10#2 0) = .next (after32 (regs32 0 0 0 0 0 0)) := by
  rfl

theorem test_nop_v20 :
    step (at32 (regs32 0x29 0x1C 3 7 7 7) false true 0b00#2 0xFFFF) =
      .next (after32 (regs32 0x29 0x1C 3 7 7 7)) := by rfl

theorem test_clr_v21 :
    step (at32 (regs32 0x29 0x1C 3 7 7 7) false true 0b11#2 0x1234) =
      .next (after32 (regs32 0 0 0 0 0 0)) := by rfl

theorem test_not_valid_v22 :
    step (at32 (regs32 0x29 0x1C 3 7 7 7) false false 0b11#2 0) =
      .next (after32 (regs32 0x29 0x1C 3 7 7 7)) := by rfl

theorem test_reset_wins_v23 :
    step (at32 (regs32 6 1 0 1 1 1) true true 0b01#2 0xFF) =
      .next (after32 (regs32 0 0 0 0 0 0)) := by rfl

/-- R150: an undefined `cmd_data` stops the run, here even beside a NOP. -/
theorem test_undefined_input_refused :
    step ⟨32, regs32 0 0 0 0 0 0, [⟨some false, some true, some 0b00#2, none⟩]⟩ =
      .refused .undefinedInput := by rfl

theorem test_presented_word_runs :
    step (State.reset.withFetchWord 40 0x20000000B) =
      .next (after32 (regs32 0 0 0 0xB 0xB 0xB)) := by rfl

/-! ### The assembler (E5, E6 and the text of R61) -/

theorem test_assemble_literals :
    assemble 32 "acc3 -1 ; all ones\n\n.width 32\nACC4 0x100000005".toList =
      .ok [0x1FFFFFFFF#34, 0x200000005#34] := by decide

theorem test_assemble_tally :
    assembleInstrs 32 "TALLY3 11, 0b101\nTALLY4".toList = .ok [.clr, .acc3 11, .acc3 5, .clr] := by
  decide

theorem test_assemble_refuses :
    assembleInstrs 32 "NOP\nAcc3 1".toList = .error (.badLine 2) ∧
      assembleInstrs 32 "TALLY3 1,,2".toList = .error (.badLine 1) ∧
      assembleInstrs 32 "NOP\n.width 16".toList = .error (.widthMismatch 2) := by decide

theorem test_disassemble :
    disassemble (W := 32) 0x10000000B#34 = "ACC3 0x0000000B".toList ∧
      disassemble (W := 32) 0x300001234#34 = "CLR".toList := by decide

/-! ### Witnesses: concrete values that meet the hypotheses of the statements -/

theorem witness_DecodeEncodeRoundTrip : (Instr.acc4 0xFFFFFFFF).wf 32 = true := by decide

theorem witness_EveryWordIsALegalCommand : 1 ≤ 1 ∧ canonical (W := 1) 0b110#3 = true ∧
    opField (W := 1) 0b110#3 = 0b11#2 := by decide

theorem witness_StepRunsDecodedCommand :
    decode (commandWord 0b01#2 (11#32)) = .acc3 11 := by decide

theorem witness_IdempotentCommands :
    exec .nop State.reset = .next State.reset ∧
      exec .clr (after32 (regs32 1 2 3 4 5 6)) = .next (after32 (regs32 0 0 0 0 0 0)) := ⟨rfl, rfl⟩

/-- Any port values with `rst` = 1, here beside an ACC3 (ResetValuesAreZero,
ResetAndClrGiveTheSameState). -/
theorem witness_reset_edge : (⟨true, true, 0b01#2, 0xFF#32⟩ : Inputs 32).rst = true := rfl

theorem witness_ResetDiscardsCommands :
    let vs : List (Inputs 32) := [⟨true, true, 0b01#2, 0xFF#32⟩, ⟨true, false, 0b00#2, 0#32⟩]
    let c : Inputs 32 := ⟨false, true, 0b10#2, 6#32⟩
    vs ≠ [] ∧ (∀ v ∈ vs, v.rst = true) ∧ c.rst = false ∧ c.valid = true := by decide

theorem witness_DrivenRunsNeverStop :
    (at32 (regs32 1 2 3 4 5 6) false true 0b01#2 7).driven = true := by decide

/-- The refusing side of StepStopsOnlyOnUndefinedInputs, with only the last port undefined. -/
theorem witness_StepStopsOnlyOnUndefinedInputs :
    (⟨some true, some true, some 0b01#2, none⟩ : Sample 32).data = none := rfl

theorem witness_PresentedWordRunsNext :
    (0x3FFFFFFFF < 2 ^ (2 + State.reset.W)) ∧ decodeTableWord 40 0x3FFFFFFFF = some .clr ∧
      decodeTableWord 40 0x400000000 = none := by decide

theorem witness_StepWritesOnlyTheRegisters :
    step (at32 (regs32 5 3 0 0 0 0) false true 0b01#2 6) = .next (after32 (regs32 3 7 0 0 0 0)) := by
  rfl

theorem witness_StepKeepsBank4Agreement :
    (at32 (regs32 1 2 3 9 9 9) false true 0b10#2 6).bank4Agrees ∧
      step (at32 (regs32 1 2 3 9 9 9) false true 0b10#2 6) =
        .next (after32 (regs32 1 2 3 6 6 6)) := ⟨⟨rfl, rfl⟩, rfl⟩

/-- A restart by reset, one by CLR, and edges without a restart (Bank3Counts,
LowHighEncodesTheCount, Bank4TracksTrailingRuns, ResidueDecodes, RestartForgetsThePast); position 0
has the count 4 there and position 1 the count 1. -/
theorem witness_restart :
    let x : Inputs 32 := ⟨false, true, 0b01#2, 1#32⟩
    let post : List (Inputs 32) := [x, x, x, ⟨false, false, 0b11#2, 0#32⟩,
      ⟨false, true, 0b10#2, 9#32⟩, ⟨false, true, 0b01#2, 3#32⟩]
    (⟨true, true, 0b01#2, 5#32⟩ : Inputs 32).restarts = true ∧
      (⟨false, true, 0b11#2, 5#32⟩ : Inputs 32).restarts = true ∧
      (∀ v ∈ post, v.restarts = false) ∧
      setCount 0 (post.filterMap Inputs.element3?) = 4 ∧
      setCount 1 (post.filterMap Inputs.element3?) = 1 ∧
      trailingRun 3 (post.filterMap Inputs.element4?) = 1 := by decide

/-- Each count of Acc3CornerCases at a position with X[i] = 1, and bank 3 all ones. -/
theorem witness_Acc3CornerCases :
    (1#32 ≠ 0#32) ∧ (1#32).getLsbD (0 : Fin 32) = true ∧
      (regs32 0 1 0 0 0 0).count3 0 = 2 ∧ (regs32 1 1 0 0 0 0).count3 0 = 3 ∧
      (regs32 0 1 1 0 0 0).count3 0 = 6 ∧ (regs32 1 1 1 0 0 0).count3 0 = 7 ∧
      (regs32 0xFFFFFFFF 0xFFFFFFFF 0xFFFFFFFF 0 0 0).bank3 =
        (BitVec.allOnes 32, BitVec.allOnes 32, BitVec.allOnes 32) := by decide

theorem witness_Acc3OrderDoesNotMatter : [1, 2, 3].Perm [3, 1, 2] := by decide

/-- Both values of X[i] of Acc4ClosedForm. -/
theorem witness_Acc4ClosedForm :
    (2#32).getLsbD (1 : Fin 32) = true ∧ (2#32).getLsbD (0 : Fin 32) = false := by decide

/-- The smallest width has a position 0 (Acc4IsNotOneHot, Acc4OrderMatters). -/
theorem witness_position_zero : 0 < 1 := by decide

/-- Equal registers in bank 4 (Bank4TracksTrailingRuns, Acc4CornerCases). -/
theorem witness_bank4_equal :
    (regs32 0 0 0 9 9 9).D0 = (regs32 0 0 0 9 9 9).D1 ∧
      (regs32 0 0 0 9 9 9).D1 = (regs32 0 0 0 9 9 9).D2 := by decide

/-- An edge that changes bank 3, one that changes bank 4, and states that share one bank. -/
theorem witness_BanksAreWrittenAndReadApart :
    ((regs32 0 0 0 0 0 0).edge ⟨false, true, 0b01#2, 1#32⟩).bank3 ≠ (regs32 0 0 0 0 0 0).bank3 ∧
      ((regs32 0 0 0 0 0 0).edge ⟨false, true, 0b10#2, 1#32⟩).bank4 ≠ (regs32 0 0 0 0 0 0).bank4 ∧
      (regs32 1 2 3 4 5 6).bank3 = (regs32 1 2 3 0 0 0).bank3 ∧
      (regs32 1 2 3 4 5 6).bank4 = (regs32 0 0 0 4 5 6).bank4 := by decide

theorem witness_BanksAreIndependent :
    ∀ i ∈ [Instr.acc3 1, .nop, .acc4 2, .acc3 3], i ≠ .clr := by decide

/-- Registers and elements that agree at position 0 and differ at position 1. -/
theorem witness_LanesAreIndependent :
    (regs32 3 0 0 2 0 0).lane3 0 = (regs32 1 0 0 0 0 0).lane3 0 ∧
      (regs32 3 0 0 2 0 0).lane4 0 = (regs32 1 0 0 0 0 0).lane4 0 ∧
      (3#32).getLsbD (0 : Fin 32) = (1#32).getLsbD (0 : Fin 32) := by decide

theorem witness_TraceShowsEveryState :
    1 < [(⟨false, true, 0b01#2, 1#32⟩ : Inputs 32), ⟨true, false, 0b00#2, 0#32⟩].length := by decide

theorem witness_WidthDirectiveIsEnforced :
    (line? ".width 16".toList = some (some (.width 16)) ∧ 16 ≠ 32) ∧
      line? "NOP".toList = some (some .nop) := by decide

theorem witness_ProgramsAssembleInTextOrder :
    assembleLines 32 1 ["NOP".toList] = .ok [.nop] ∧
      assembleLines 32 (1 + 1) ["CLR".toList] = .ok [.clr] := by decide

theorem witness_AssemblerReadsTheDisassembly : 1 ≤ 32 := by decide

end Sys2Proof.Tests
end

section
/-! PROOFS. The step on the registers: an edge with defined ports always completes, and what it does
is one of four arms that the sampled inputs alone select (R143). -/

namespace Sys2Proof

/-- Decoding a word put together selects the command by its code (R56). -/
theorem decode_commandWord {W : Nat} (op : BitVec 2) (d : Word W) :
    decode (commandWord op d) =
      if op = 0b00#2 then .nop
      else if op = 0b01#2 then .acc3 d.toNat
      else if op = 0b10#2 then .acc4 d.toNat
      else .clr := by
  simp only [decode, opField_commandWord, dataField_commandWord]

namespace Machine

variable {W : Nat}

/-- A command always completes, and does to the registers what `Regs.command` says. -/
@[simp] theorem exec_mk (i : Instr) (r : Regs W) (ps : List (Sample W)) :
    exec i ⟨W, r, ps⟩ = .next ⟨W, r.command i, ps⟩ := by
  cases i <;> rfl

/-- The command on the ports, as the arms of `Regs.edge` below reset and `cmd_valid` have it. -/
theorem Regs.command_decode_word (r : Regs W) (v : Inputs W) :
    r.command (decode v.word) =
      if v.op = 0b00#2 then r
      else if v.op = 0b01#2 then r.acc3 v.data
      else if v.op = 0b10#2 then r.acc4 v.data
      else r.clear := by
  rw [Inputs.word, decode_commandWord]
  split_ifs <;> simp [Regs.command]

/-- R143: an edge with defined ports always completes, with the registers that `Regs.edge` gives. -/
@[simp] theorem applyInputs_mk (r : Regs W) (ps : List (Sample W)) (v : Inputs W) :
    applyInputs ⟨W, r, ps⟩ v = .next ⟨W, r.edge v, ps⟩ := by
  obtain ⟨hrst, h⟩ | ⟨hrst, hvalid, h⟩ | ⟨hrst, hvalid, h⟩ := applyInputs_cases ⟨W, r, ps⟩ v
  · simp [h, Regs.edge, hrst]
  · simp [h, Regs.edge, hrst, hvalid, Regs.command_decode_word]
  · simp [h, Regs.edge, hrst, hvalid]

/-- A step on a sample of defined ports is `Regs.edge` on the registers. -/
theorem step_sample (r : Regs W) (ps : List (Sample W)) (v : Inputs W) :
    step ⟨W, r, v.sample :: ps⟩ = .next ⟨W, r.edge v, ps⟩ := by
  simp

theorem Inputs.restarts_iff (v : Inputs W) :
    v.restarts = true ↔ v.rst = true ∨ (v.valid = true ∧ v.op = 0b11#2) := by
  simp [Inputs.restarts]

theorem Inputs.element3?_eq_some (v : Inputs W) (X : Word W) :
    v.element3? = some X ↔ v.rst = false ∧ v.valid = true ∧ v.op = 0b01#2 ∧ v.data = X := by
  simp [Inputs.element3?, and_assoc]

theorem Inputs.element4?_eq_some (v : Inputs W) (X : Word W) :
    v.element4? = some X ↔ v.rst = false ∧ v.valid = true ∧ v.op = 0b10#2 ∧ v.data = X := by
  simp [Inputs.element4?, and_assoc]

/-- All that an edge can do to the registers. Which arm it is depends on the inputs alone, so it is
the same arm for every two register states. -/
theorem Inputs.edge_arms (v : Inputs W) :
    (v.restarts = true ∧ v.element3? = none ∧ v.element4? = none ∧
      ∀ r : Regs W, r.edge v = Regs.zero W) ∨
    (v.restarts = false ∧ v.element3? = some v.data ∧ v.element4? = none ∧
      ∀ r : Regs W, r.edge v = r.acc3 v.data) ∨
    (v.restarts = false ∧ v.element3? = none ∧ v.element4? = some v.data ∧
      ∀ r : Regs W, r.edge v = r.acc4 v.data) ∨
    (v.restarts = false ∧ v.element3? = none ∧ v.element4? = none ∧
      ∀ r : Regs W, r.edge v = r) := by
  obtain ⟨rst, valid, op, d⟩ := v
  cases rst with
  | true => exact .inl ⟨rfl, rfl, rfl, fun _ => rfl⟩
  | false =>
    cases valid with
    | false => exact .inr (.inr (.inr ⟨rfl, rfl, rfl, fun _ => rfl⟩))
    | true =>
      obtain rfl | rfl | rfl | rfl := opcode_cases op
      · exact .inr (.inr (.inr ⟨rfl, rfl, rfl, fun _ => rfl⟩))
      · exact .inr (.inl ⟨rfl, rfl, rfl, fun _ => rfl⟩)
      · exact .inr (.inr (.inl ⟨rfl, rfl, rfl, fun _ => rfl⟩))
      · exact .inl ⟨rfl, rfl, rfl, fun _ => rfl⟩

end Machine

end Sys2Proof
end

section
/-! PROOFS. The reset values, and the two banks apart from each other (R21, R22, R32). -/

namespace Sys2Proof.Machine

variable {W : Nat}

@[simp] theorem Regs.get_zero (g : Reg) : (Regs.zero W).get g = 0#W := by
  cases g <;> rfl

/-- A reset edge, whatever else its ports carry (R141). -/
theorem Regs.edge_of_rst (r : Regs W) {v : Inputs W} (h : v.rst = true) :
    r.edge v = Regs.zero W := by
  simp [Regs.edge, h]

@[simp] theorem Regs.acc3_bank4 (r : Regs W) (X : Word W) : (r.acc3 X).bank4 = r.bank4 := rfl

@[simp] theorem Regs.acc4_bank3 (r : Regs W) (X : Word W) : (r.acc4 X).bank3 = r.bank3 := rfl

theorem Regs.bank3_eq_iff {r q : Regs W} :
    r.bank3 = q.bank3 ↔ r.L = q.L ∧ r.H = q.H ∧ r.T = q.T := by
  simp [Regs.bank3]

theorem Regs.bank4_eq_iff {r q : Regs W} :
    r.bank4 = q.bank4 ↔ r.D0 = q.D0 ∧ r.D1 = q.D1 ∧ r.D2 = q.D2 := by
  simp [Regs.bank4]

/-- ACC3 reads nothing of bank 4. -/
theorem Regs.acc3_bank3_congr {r q : Regs W} (X : Word W) (h : r.bank3 = q.bank3) :
    (r.acc3 X).bank3 = (q.acc3 X).bank3 := by
  obtain ⟨hL, hH, hT⟩ := Regs.bank3_eq_iff.mp h
  simp [Regs.bank3_eq_iff, Regs.carry, Regs.carry2, hL, hH, hT]

/-- ACC4 reads nothing of bank 3. -/
theorem Regs.acc4_bank4_congr {r q : Regs W} (X : Word W) (h : r.bank4 = q.bank4) :
    (r.acc4 X).bank4 = (q.acc4 X).bank4 := by
  obtain ⟨h0, h1, h2⟩ := Regs.bank4_eq_iff.mp h
  simp [Regs.bank4_eq_iff, h0, h1, h2]

/-- Bank 3 is written only by a reset, CLR or ACC3. -/
theorem Regs.edge_bank3_ne {r : Regs W} {v : Inputs W} (h : (r.edge v).bank3 ≠ r.bank3) :
    v.restarts = true ∨ v.element3? = some v.data := by
  obtain ⟨hrestart, -, -, -⟩ | ⟨-, helem, -, -⟩ | ⟨-, -, -, hedge⟩ | ⟨-, -, -, hedge⟩ := v.edge_arms
  · exact .inl hrestart
  · exact .inr helem
  · exact absurd (by simp [hedge]) h
  · exact absurd (by simp [hedge]) h

/-- Bank 4 is written only by a reset, CLR or ACC4. -/
theorem Regs.edge_bank4_ne {r : Regs W} {v : Inputs W} (h : (r.edge v).bank4 ≠ r.bank4) :
    v.restarts = true ∨ v.element4? = some v.data := by
  obtain ⟨hrestart, -, -, -⟩ | ⟨-, -, -, hedge⟩ | ⟨-, -, helem, -⟩ | ⟨-, -, -, hedge⟩ := v.edge_arms
  · exact .inl hrestart
  · exact absurd (by simp [hedge]) h
  · exact .inr helem
  · exact absurd (by simp [hedge]) h

/-- No edge lets bank 4 reach bank 3. -/
theorem Regs.edge_bank3_congr {r q : Regs W} (v : Inputs W) (h : r.bank3 = q.bank3) :
    (r.edge v).bank3 = (q.edge v).bank3 := by
  obtain ⟨-, -, -, hedge⟩ | ⟨-, -, -, hedge⟩ | ⟨-, -, -, hedge⟩ | ⟨-, -, -, hedge⟩ := v.edge_arms
  · simp [hedge]
  · simpa only [hedge] using Regs.acc3_bank3_congr v.data h
  · simpa [hedge] using h
  · simpa [hedge] using h

/-- No edge lets bank 3 reach bank 4. -/
theorem Regs.edge_bank4_congr {r q : Regs W} (v : Inputs W) (h : r.bank4 = q.bank4) :
    (r.edge v).bank4 = (q.edge v).bank4 := by
  obtain ⟨-, -, -, hedge⟩ | ⟨-, -, -, hedge⟩ | ⟨-, -, -, hedge⟩ | ⟨-, -, -, hedge⟩ := v.edge_arms
  · simp [hedge]
  · simpa [hedge] using h
  · simpa only [hedge] using Regs.acc4_bank4_congr v.data h
  · simpa [hedge] using h

/-- Settles O41: the step is `Regs.edge`, whose arms keep the banks apart. -/
theorem banksAreWrittenAndReadApart : Obligations.BanksAreWrittenAndReadApart := by
  intro W r q ps v
  refine ⟨r.edge v, q.edge v, step_sample r ps v, step_sample q ps v, fun h => ?_, fun h => ?_,
    Regs.edge_bank3_congr v, Regs.edge_bank4_congr v, rfl, rfl⟩
  · have hwrite := Regs.edge_bank3_ne h
    rw [Inputs.restarts_iff, Inputs.element3?_eq_some] at hwrite
    tauto
  · have hwrite := Regs.edge_bank4_ne h
    rw [Inputs.restarts_iff, Inputs.element4?_eq_some] at hwrite
    tauto

/-- Settles O16: reset, a reset edge and CLR all give the registers `Regs.zero`. -/
theorem resetValuesAreZero : Obligations.ResetValuesAreZero := by
  refine ⟨fun _ => Regs.get_zero, Regs.get_zero, fun W r ps v hrst => ?_, fun W r ps => ?_⟩
  · exact ⟨Regs.zero W, by rw [step_sample, Regs.edge_of_rst r hrst], Regs.get_zero⟩
  · exact ⟨Regs.zero W, exec_mk .clr r ps, Regs.get_zero⟩

end Sys2Proof.Machine
end

section
/-! PROOFS. Command words: the number of a word, and what the decoder and the encoder make of its two
fields (R55, R56, R59). -/

namespace Sys2Proof

variable {W : Nat}

/-- `op` stands above the `W` bits of `data` (R55). -/
theorem commandWord_toNat (op : BitVec 2) (d : Word W) :
    (commandWord op d).toNat = op.toNat * 2 ^ W + d.toNat := by
  rw [commandWord, BitVec.toNat_append, ← Nat.shiftLeft_add_eq_or_of_lt d.isLt, Nat.shiftLeft_eq]

/-- Settles O1. -/
theorem commandWordIsOpThenData : Obligations.CommandWordIsOpThenData := fun _ op d =>
  ⟨commandWord_toNat op d, opField_commandWord op d, dataField_commandWord op d⟩

/-- Settles O2: each code meets its own test in the decoder. -/
theorem opFieldSelectsCommand : Obligations.OpFieldSelectsCommand := by
  intro W d
  refine ⟨?_, ?_, ?_, ?_⟩ <;> simp [decode_commandWord]

/-- All that the decoder can answer, by the `op` field. -/
theorem decode_cases (cw : CommandWord W) :
    (opField cw = 0b00#2 ∧ decode cw = .nop) ∨
    (opField cw = 0b01#2 ∧ decode cw = .acc3 (dataField cw).toNat) ∨
    (opField cw = 0b10#2 ∧ decode cw = .acc4 (dataField cw).toNat) ∨
    (opField cw = 0b11#2 ∧ decode cw = .clr) := by
  obtain h | h | h | h := opcode_cases (opField cw) <;> simp [decode, h]

/-- A command fits a build exactly when the build exists and the element is a `W`-bit value. -/
theorem Instr.wf_iff (i : Instr) : i.wf W = true ↔ 1 ≤ W ∧ i.element < 2 ^ W := by
  cases i <;> simp [Instr.wf, Instr.element, Config.legalWidth, fitsWidth]

/-- The element of a decoded command came from `W` wires. -/
theorem decode_element_lt (cw : CommandWord W) : (decode cw).element < 2 ^ W := by
  obtain ⟨-, h⟩ | ⟨-, h⟩ | ⟨-, h⟩ | ⟨-, h⟩ := decode_cases cw
  · simp [h, Instr.element]
  · simpa [h, Instr.element] using (dataField cw).isLt
  · simpa [h, Instr.element] using (dataField cw).isLt
  · simp [h, Instr.element]

/-- A command whose element fits the port is read back from its word. -/
theorem decode_encode_of_element_lt {i : Instr} (h : i.element < 2 ^ W) :
    decode (encode W i) = i := by
  rw [encode, decode_commandWord, BitVec.toNat_ofNat, Nat.mod_eq_of_lt h]
  cases i <;> rfl

/-- R59, the condition on a canonical word. -/
theorem canonical_iff (cw : CommandWord W) :
    canonical cw = true ↔
      ((opField cw = 0b00#2 ∨ opField cw = 0b11#2) → dataField cw = 0#W) := by
  obtain h | h | h | h := opcode_cases (opField cw) <;> simp [canonical, h]

/-- The encoder answers canonical words only. -/
theorem canonical_encode (i : Instr) : canonical (encode W i) = true := by
  cases i <;> simp [canonical, encode, Instr.opcode, Instr.element]

/-- A canonical word is the one its command is encoded as: both fields agree. -/
theorem encode_decode_of_canonical {cw : CommandWord W} (hcanon : canonical cw = true) :
    encode W (decode cw) = cw := by
  rw [canonical_iff] at hcanon
  obtain ⟨hopcode, helement⟩ : (decode cw).opcode = opField cw ∧
      BitVec.ofNat W (decode cw).element = dataField cw := by
    obtain ⟨hop, h⟩ | ⟨hop, h⟩ | ⟨hop, h⟩ | ⟨hop, h⟩ := decode_cases cw
    · simp [h, hop, Instr.opcode, Instr.element, hcanon (.inl hop)]
    · simp [h, hop, Instr.opcode, Instr.element]
    · simp [h, hop, Instr.opcode, Instr.element]
    · simp [h, hop, Instr.opcode, Instr.element, hcanon (.inr hop)]
  rw [encode, hopcode, helement, commandWord_fields]

/-- Settles O4: a decoded element always fits, so encoding and decoding again gives the command
back, and the canonical words are exactly the encoder's answers. -/
theorem everyWordIsALegalCommand : Obligations.EveryWordIsALegalCommand := by
  intro W cw
  refine ⟨fun hW => (Instr.wf_iff _).mpr ⟨hW, decode_element_lt cw⟩, fun s => ?_,
    decode_encode_of_element_lt (decode_element_lt cw), canonical_encode _,
    ⟨encode_decode_of_canonical, fun h => ?_⟩, canonical_iff cw⟩
  · obtain ⟨r, hexec⟩ := Machine.exec_next (decode cw) s
    exact ⟨_, hexec⟩
  · rw [← h]
    exact canonical_encode _

end Sys2Proof
end

section
/-! PROOFS. What the ports at one edge do to the registers, command by command, and the runs of a
schedule of commands (R57, R58, R143, R144). -/

namespace Sys2Proof.Machine

variable {W : Nat}

@[simp] theorem Regs.edge_no_command (r : Regs W) (op : BitVec 2) (d : Word W) :
    r.edge ⟨false, false, op, d⟩ = r := rfl
@[simp] theorem Regs.edge_nop (r : Regs W) (d : Word W) : r.edge ⟨false, true, 0b00#2, d⟩ = r := rfl
@[simp] theorem Regs.edge_acc3 (r : Regs W) (d : Word W) :
    r.edge ⟨false, true, 0b01#2, d⟩ = r.acc3 d := rfl
@[simp] theorem Regs.edge_acc4 (r : Regs W) (d : Word W) :
    r.edge ⟨false, true, 0b10#2, d⟩ = r.acc4 d := rfl
@[simp] theorem Regs.edge_clr (r : Regs W) (d : Word W) :
    r.edge ⟨false, true, 0b11#2, d⟩ = Regs.zero W := rfl

/-- Settles O7. -/
theorem operandIsDataBitForBit : Obligations.OperandIsDataBitForBit := by
  intro W r ps d e
  refine ⟨fun i _ => by rw [operandX_toNat], ?_, ?_, ?_, ?_⟩
  · rw [step_sample, Regs.edge_acc3]
  · rw [step_sample, Regs.edge_acc4]
  · rw [step_sample, step_sample, Regs.edge_nop, Regs.edge_nop]
  · rw [step_sample, step_sample, Regs.edge_clr, Regs.edge_clr]

/-- Settles O18. -/
theorem noCommandHoldsRegisters : Obligations.NoCommandHoldsRegisters := by
  intro W r ps op d
  have hstep : step ⟨W, r, Inputs.sample ⟨false, false, op, d⟩ :: ps⟩ = .next ⟨W, r, ps⟩ := by
    rw [step_sample, Regs.edge_no_command]
  exact ⟨hstep, hstep.trans (exec_mk .nop r ps).symm⟩

/-- Presenting a command runs it. It need not fit the port: the word and the operand reduce the
element alike (R46, R62). -/
@[simp] theorem Regs.edge_ofInstr (r : Regs W) (i : Instr) :
    r.edge (Inputs.ofInstr W i) = r.command i := by
  have hports : Inputs.ofInstr W i = ⟨false, true, i.opcode, BitVec.ofNat W i.element⟩ := by
    simp [Inputs.ofInstr, Inputs.ofWord, encode]
  cases i <;> simp [hports, Instr.opcode, Instr.element, Regs.command, operandX]

/-- A run over defined ports is the fold of `Regs.edge`; the samples after them are left. -/
theorem runEdges_samples (r : Regs W) (vs : List (Inputs W)) (ps : List (Sample W)) :
    runEdges vs.length ⟨W, r, vs.map Inputs.sample ++ ps⟩ =
      .next ⟨W, vs.foldl Regs.edge r, ps⟩ := by
  induction vs generalizing r with
  | nil => rfl
  | cons v vs ih => exact (runEdges_succ (step_sample r _ v)).trans (ih (r.edge v))

/-- A run over a schedule of commands is the fold of the command rules (R144). -/
theorem runEdges_schedule (r : Regs W) (is : List Instr) :
    runEdges is.length ⟨W, r, schedule W is⟩ = .next ⟨W, r.run is, []⟩ := by
  have hrun := runEdges_samples r (is.map (Inputs.ofInstr W)) []
  simpa [schedule, Regs.run, List.foldl_map, Function.comp_def] using hrun

end Sys2Proof.Machine
end

section
/-! PROOFS. Bank 3 counts set bits modulo 8, and bank 4 keeps the parity of the trailing run of set
bits, both at every position (R80, R89). -/

namespace Sys2Proof.Machine

variable {W : Nat}

/-- Adding the bit `x` to the three-bit count `thl` with the carries of ACC3. -/
theorem add_bit_with_carries : ∀ l h t x : Bool,
    4 * (t ^^ (h && (l && x))).toNat + 2 * (h ^^ (l && x)).toNat + (l ^^ x).toNat =
      (4 * t.toNat + 2 * h.toNat + l.toNat + x.toNat) % 8 := by
  decide

/-- R80 for one command. -/
theorem Regs.count3_acc3 (r : Regs W) (X : Word W) (i : Fin W) :
    (r.acc3 X).count3 i = (r.count3 i + (X.getLsbD i).toNat) % 8 := by
  simpa [Regs.count3, Regs.carry, Regs.carry2] using
    add_bit_with_carries (r.L.getLsbD i) (r.H.getLsbD i) (r.T.getLsbD i) (X.getLsbD i)

theorem Regs.count3_lt (r : Regs W) (i : Fin W) : r.count3 i < 8 := by
  have hL := (r.L.getLsbD i).toNat_le
  have hH := (r.H.getLsbD i).toNat_le
  have hT := (r.T.getLsbD i).toNat_le
  unfold Regs.count3
  omega

@[simp] theorem Regs.count3_zero (i : Fin W) : (Regs.zero W).count3 i = 0 := by
  simp [Regs.count3]

theorem setCount_cons (i : Fin W) (x : Word W) (xs : List (Word W)) :
    setCount i (x :: xs) = (x.getLsbD i).toNat + setCount i xs := by
  rw [setCount, setCount, List.countP_cons, Nat.add_comm]
  cases x.getLsbD i <;> rfl

/-- R80 for a list of elements. -/
theorem Regs.count3_foldl_acc3 (r : Regs W) (xs : List (Word W)) (i : Fin W) :
    (xs.foldl Regs.acc3 r).count3 i = (r.count3 i + setCount i xs) % 8 := by
  induction xs generalizing r with
  | nil => exact (Nat.mod_eq_of_lt (r.count3_lt i)).symm
  | cons x xs ih =>
    rw [List.foldl_cons, ih, Regs.count3_acc3, setCount_cons]
    omega

@[simp] theorem Regs.foldl_acc3_bank4 (r : Regs W) (xs : List (Word W)) :
    (xs.foldl Regs.acc3 r).bank4 = r.bank4 := by
  induction xs generalizing r with
  | nil => rfl
  | cons x xs ih => rw [List.foldl_cons, ih, Regs.acc3_bank4]

@[simp] theorem Regs.foldl_acc4_bank3 (r : Regs W) (xs : List (Word W)) :
    (xs.foldl Regs.acc4 r).bank3 = r.bank3 := by
  induction xs generalizing r with
  | nil => rfl
  | cons x xs ih => rw [List.foldl_cons, ih, Regs.acc4_bank3]

/-- R89 for one command: from equal registers a position is set exactly when it was clear and the
element sets it. -/
theorem Regs.acc4_bank4_of_equal {r : Regs W} {D : Word W} (X : Word W) (h : r.bank4 = (D, D, D)) :
    (r.acc4 X).bank4 = (X &&& ~~~D, X &&& ~~~D, X &&& ~~~D) := by
  obtain ⟨h0, h1, h2⟩ : r.D0 = D ∧ r.D1 = D ∧ r.D2 = D := by simpa [Regs.bank4] using h
  have hlaw : ~~~D &&& (D ^^^ X) = X &&& ~~~D := by
    ext i hi
    cases hD : D[i] <;> simp [hD]
  simp [Regs.bank4, h0, h1, h2, hlaw]

theorem trailingRun_concat (i : Fin W) (xs : List (Word W)) (x : Word W) :
    trailingRun i (xs ++ [x]) = if x.getLsbD i then trailingRun i xs + 1 else 0 := by
  rw [trailingRun, List.reverse_concat, List.takeWhile_cons]
  cases x.getLsbD i <;> rfl

/-- R89 for a list of elements, from zero: the three registers stay equal, and each bit is the parity
of its trailing run. -/
theorem Regs.bank4_foldl_acc4_zero (xs : List (Word W)) :
    ∃ D : Word W, (xs.foldl Regs.acc4 (Regs.zero W)).bank4 = (D, D, D) ∧
      ∀ i : Fin W, D.getLsbD i = (trailingRun i xs % 2 == 1) := by
  induction xs using List.reverseRecOn with
  | nil => exact ⟨0#W, rfl, fun i => by simp [trailingRun]⟩
  | append_singleton xs x ih =>
    obtain ⟨D, hbank, hparity⟩ := ih
    refine ⟨x &&& ~~~D, ?_, fun i => ?_⟩
    · rw [List.foldl_concat]
      exact Regs.acc4_bank4_of_equal x hbank
    · have hflip : (!(trailingRun i xs % 2 == 1)) = ((trailingRun i xs + 1) % 2 == 1) := by
        obtain h | h := Nat.mod_two_eq_zero_or_one (trailingRun i xs) <;>
          simp [Nat.add_mod, h]
      rw [trailingRun_concat, BitVec.getLsbD_and, BitVec.getLsbD_not, hparity, hflip]
      cases x.getLsbD i <;> simp

end Sys2Proof.Machine
end

section
/-! PROOFS. The assembler's literals, its two pseudo-operations, its directive and the examples of the
spec (R62 to R65, R67). -/

namespace Sys2Proof.Machine

variable {W : Nat}

/-- R62: a literal stands for its residue modulo `2 ^ W`. -/
theorem literalData_cast (W : Nat) (v : Int) : (literalData W v : Int) = v % (2 ^ W : Int) :=
  Int.toNat_of_nonneg (Int.emod_nonneg v (by positivity))

theorem literalData_lt (W : Nat) (v : Int) : literalData W v < 2 ^ W := by
  have h : (literalData W v : Int) < 2 ^ W := by
    rw [literalData_cast]
    exact Int.emod_lt_of_pos v (by positivity)
  exact_mod_cast h

/-- The encoded literal is the two's-complement pattern of its value. -/
@[simp] theorem operandX_literalData (W : Nat) (v : Int) :
    operandX W (literalData W v) = BitVec.ofInt W v := by
  apply BitVec.eq_of_toNat_eq
  rw [operandX, BitVec.toNat_ofNat, Nat.mod_eq_of_lt (literalData_lt W v), BitVec.toNat_ofInt]
  simp [literalData]

/-- An element that fits is the `data` field of its command's word. -/
theorem dataField_encode_toNat {i : Instr} (h : i.element < 2 ^ W) :
    (dataField (encode W i)).toNat = i.element := by
  rw [encode, dataField_commandWord, BitVec.toNat_ofNat, Nat.mod_eq_of_lt h]

/-- Settles O51. -/
theorem literalsAreReduced : Obligations.LiteralsAreReduced := fun W v =>
  ⟨literalData_lt W v, literalData_cast W v, operandX_literalData W v,
    dataField_encode_toNat (literalData_lt W v), dataField_encode_toNat (literalData_lt W v)⟩

/-- What the commands of TALLY3 do: ACC3 of every literal's pattern, from zero. -/
theorem Regs.run_expand_tally3 (r : Regs W) (vs : List Int) :
    r.run (Stmt.expand W (.tally3 vs)) =
      (vs.map (BitVec.ofInt W)).foldl Regs.acc3 (Regs.zero W) := by
  simp [Regs.run, Stmt.expand, List.foldl_map, Regs.command]

/-- What the commands of TALLY4 do: ACC4 of every literal's pattern, from zero. -/
theorem Regs.run_expand_tally4 (r : Regs W) (vs : List Int) :
    r.run (Stmt.expand W (.tally4 vs)) =
      (vs.map (BitVec.ofInt W)).foldl Regs.acc4 (Regs.zero W) := by
  simp [Regs.run, Stmt.expand, List.foldl_map, Regs.command]

/-- Settles O52: the run is the fold of ACC3 from zero, which counts. -/
theorem tally3CountsItsElements : Obligations.Tally3CountsItsElements := by
  intro W r vs
  refine ⟨rfl, r.run (Stmt.expand W (.tally3 vs)), ?_, rfl, rfl, fun i => ?_, ?_, ?_⟩
  · simpa [Stmt.expand] using runEdges_schedule r (Stmt.expand W (.tally3 vs))
  · rw [Regs.run_expand_tally3, Regs.count3_foldl_acc3, Regs.count3_zero, Nat.zero_add]
  · rw [Regs.run_expand_tally3, Regs.foldl_acc3_bank4]
    rfl
  · rintro rfl
    rfl

/-- Settles O53: the run is the fold of ACC4 from zero, which keeps the parities. -/
theorem tally4TracksItsElements : Obligations.Tally4TracksItsElements := by
  intro W r vs
  refine ⟨rfl, r.run (Stmt.expand W (.tally4 vs)), ?_, rfl, ?_, ?_, ?_⟩
  · simpa [Stmt.expand] using runEdges_schedule r (Stmt.expand W (.tally4 vs))
  · rw [Regs.run_expand_tally4]
    obtain ⟨D, hbank, hparity⟩ := Regs.bank4_foldl_acc4_zero (vs.map (BitVec.ofInt W))
    simp only [Regs.bank4, Prod.mk.injEq] at hbank
    obtain ⟨h0, h1, h2⟩ := hbank
    intro i
    rw [h0, h1, h2]
    exact ⟨hparity i, rfl, rfl⟩
  · rw [Regs.run_expand_tally4, Regs.foldl_acc4_bank3]
    rfl
  · rintro rfl
    rfl

/-- Only a directive that names another width does not fit. -/
theorem Stmt.fits_eq_false_iff (st : Stmt) : st.fits W = false ↔ ∃ n, st = .width n ∧ n ≠ W := by
  cases st <;> simp [Stmt.fits]

/-- All that the assembler can do with the first line: refuse it, skip it, or put its commands before
those of the other lines. -/
theorem assembleLines_cons_cases (W k : Nat) (l : List Char) (ls : List (List Char)) :
    (line? l = none ∧ assembleLines W k (l :: ls) = .error (.badLine k)) ∨
    (line? l = some none ∧ assembleLines W k (l :: ls) = assembleLines W (k + 1) ls) ∨
    (∃ st, line? l = some (some st) ∧ st.fits W = false ∧
      assembleLines W k (l :: ls) = .error (.widthMismatch k)) ∨
    (∃ st, line? l = some (some st) ∧ st.fits W = true ∧
      assembleLines W k (l :: ls) = (st.expand W ++ ·) <$> assembleLines W (k + 1) ls) := by
  match h : line? l with
  | none => simp [assembleLines, h]
  | some none => simp [assembleLines, h]
  | some (some st) =>
    cases hfits : st.fits W
    · simp [assembleLines, h, hfits]
    · cases hrest : assembleLines W (k + 1) ls <;> simp [assembleLines, h, hfits, hrest]

/-- R65: a `.width` other than the target's anywhere in the program has it refused. -/
theorem assembleLines_error_of_width_ne {l : List Char} {n : Nat}
    (hl : line? l = some (some (.width n))) (hn : n ≠ W) {ls : List (List Char)} (hmem : l ∈ ls)
    (k : Nat) : ∃ e, assembleLines W k ls = .error e := by
  induction ls generalizing k with
  | nil => cases hmem
  | cons m ls ih =>
    obtain ⟨-, h⟩ | ⟨hm, h⟩ | ⟨st, -, -, h⟩ | ⟨st, hm, hfits, h⟩ := assembleLines_cons_cases W k m ls
    · exact ⟨_, h⟩
    · obtain rfl | htail := List.mem_cons.mp hmem
      · simp [hl] at hm
      · rw [h]
        exact ih htail (k + 1)
    · exact ⟨_, h⟩
    · obtain rfl | htail := List.mem_cons.mp hmem
      · obtain rfl : Stmt.width n = st := by simpa [hl] using hm
        simp [Stmt.fits, hn] at hfits
      · obtain ⟨e, he⟩ := ih htail (k + 1)
        exact ⟨e, by rw [h, he]; rfl⟩

/-- A program is refused for its width only over a line that names another one. -/
theorem exists_width_of_assembleLines_widthMismatch {ls : List (List Char)} {k j : Nat}
    (herr : assembleLines W k ls = .error (.widthMismatch j)) :
    ∃ l ∈ ls, ∃ n, line? l = some (some (.width n)) ∧ n ≠ W := by
  induction ls generalizing k with
  | nil => cases herr
  | cons m ls ih =>
    have hlater : assembleLines W (k + 1) ls = .error (.widthMismatch j) →
        ∃ l ∈ m :: ls, ∃ n, line? l = some (some (.width n)) ∧ n ≠ W := fun hrest => by
      obtain ⟨l, hmem, hl⟩ := ih hrest
      exact ⟨l, List.mem_cons_of_mem m hmem, hl⟩
    obtain ⟨-, h⟩ | ⟨-, h⟩ | ⟨st, hm, hfits, -⟩ | ⟨st, -, -, h⟩ := assembleLines_cons_cases W k m ls
    · simp [h] at herr
    · exact hlater (h.symm.trans herr)
    · obtain ⟨n, rfl, hn⟩ := (Stmt.fits_eq_false_iff st).mp hfits
      exact ⟨m, List.mem_cons_self, n, hm, hn⟩
    · cases hrest : assembleLines W (k + 1) ls with
      | ok is => simp [h, hrest] at herr
      | error e => exact hlater (by simpa [h, hrest] using herr)

/-- Settles O54. -/
theorem widthDirectiveIsEnforced : Obligations.WidthDirectiveIsEnforced := by
  intro W k ls
  refine ⟨fun _ => rfl, fun l hmem n hl hn => assembleLines_error_of_width_ne hl hn hmem k,
    fun hnone j herr => ?_⟩
  obtain ⟨l, hmem, n, hl, -⟩ := exists_width_of_assembleLines_widthMismatch herr
  exact hnone l hmem n hl

/-- Settles O6: the six texts of R67, each run through the assembler. -/
theorem exampleEncodings : Obligations.ExampleEncodings := by
  refine ⟨?_, ?_, ?_, ?_, ?_, ?_⟩ <;> decide

end Sys2Proof.Machine
end

section
/-! PROOFS. What ACC3 and ACC4 do at one position, in every state (R75 to R78, R85 to R87, R95). -/

namespace Sys2Proof.Machine

variable {W : Nat}

/-- What ACC3 of a presented element answers in every state. -/
theorem exec_acc3_toNat (r : Regs W) (ps : List (Sample W)) (X : Word W) :
    exec (.acc3 X.toNat) ⟨W, r, ps⟩ = .next ⟨W, r.acc3 X, ps⟩ := by
  rw [exec_mk, Regs.command, operandX_toNat]

/-- What ACC4 of a presented element answers in every state. -/
theorem exec_acc4_toNat (r : Regs W) (ps : List (Sample W)) (X : Word W) :
    exec (.acc4 X.toNat) ⟨W, r, ps⟩ = .next ⟨W, r.acc4 X, ps⟩ := by
  rw [exec_mk, Regs.command, operandX_toNat]

/-- Settles O10. -/
theorem acc3FollowsItsSteps : Obligations.Acc3FollowsItsSteps :=
  ⟨fun s X => exec_acc3_toNat s.regs s.presented X, fun _ X => decode_commandWord 0b01#2 X, rfl⟩

/-- Settles O11. -/
theorem acc4FollowsItsEquations : Obligations.Acc4FollowsItsEquations :=
  ⟨fun s X => exec_acc4_toNat s.regs s.presented X, fun _ X => decode_commandWord 0b10#2 X, rfl⟩

/-- The table of R76 is the addition of X[i] with the two carries. -/
theorem acc3Table_eq : ∀ t h l x : Bool,
    acc3Table (t, h, l) x = (t ^^ (h && (l && x)), h ^^ (l && x), l ^^ x) := by
  decide

/-- The table of R86 is the three equations of `tally_mod4` on one position. -/
theorem acc4Table_eq : ∀ d0 d1 d2 x : Bool,
    acc4Table (d0, d1, d2) x =
      (!d1 && !d2 && (d0 ^^ x), !d0 && !d2 && (d1 ^^ x), !d0 && !d1 && (d2 ^^ x)) := by
  decide

/-- ACC3 moves every lane by its table. -/
theorem Regs.lane3_acc3 (r : Regs W) (X : Word W) (i : Fin W) :
    (r.acc3 X).lane3 i = acc3Table (r.lane3 i) (X.getLsbD i) := by
  simp [Regs.lane3, acc3Table_eq, Regs.carry, Regs.carry2]

/-- ACC4 moves every lane by its table. -/
theorem Regs.lane4_acc4 (r : Regs W) (X : Word W) (i : Fin W) :
    (r.acc4 X).lane4 i = acc4Table (r.lane4 i) (X.getLsbD i) := by
  simp [Regs.lane4, acc4Table_eq]

/-- Settles O27. -/
theorem acc3TransitionTable : Obligations.Acc3TransitionTable := fun _ r ps X =>
  ⟨r.acc3 X, exec_acc3_toNat r ps X, r.lane3_acc3 X⟩

/-- Settles O35. -/
theorem acc4TransitionTable : Obligations.Acc4TransitionTable := fun _ r ps X =>
  ⟨r.acc4 X, exec_acc4_toNat r ps X, r.lane4_acc4 X⟩

/-- Adding `x` to the count `thl` carries out of bit 0 exactly on its four rolls. -/
theorem carry_iff_roll : ∀ l h t x : Bool,
    (l = true ∧ x = true ↔
      (4 * t.toNat + 2 * h.toNat + l.toNat, (4 * t.toNat + 2 * h.toNat + l.toNat + x.toNat) % 8) ∈
        [(1, 2), (3, 4), (5, 6), (7, 0)]) := by
  decide

/-- Adding `x` to the count `thl` carries out of bit 1 exactly on its two rolls. -/
theorem carry2_iff_roll : ∀ l h t x : Bool,
    (l = true ∧ h = true ∧ x = true ↔
      (4 * t.toNat + 2 * h.toNat + l.toNat, (4 * t.toNat + 2 * h.toNat + l.toNat + x.toNat) % 8) ∈
        [(3, 4), (7, 0)]) := by
  decide

theorem Regs.carry_getLsbD_iff (r : Regs W) (X : Word W) (i : Fin W) :
    (r.carry X).getLsbD i = true ↔ r.L.getLsbD i = true ∧ X.getLsbD i = true := by
  simp [Regs.carry]

theorem Regs.carry2_getLsbD_iff (r : Regs W) (X : Word W) (i : Fin W) :
    (r.carry2 X).getLsbD i = true ↔
      r.L.getLsbD i = true ∧ r.H.getLsbD i = true ∧ X.getLsbD i = true := by
  simp [Regs.carry2, Regs.carry, and_left_comm]

/-- T changes exactly where `carry2` is set. -/
theorem Regs.acc3_T_getLsbD_ne_iff (r : Regs W) (X : Word W) (i : Fin W) :
    (r.acc3 X).T.getLsbD i ≠ r.T.getLsbD i ↔ (r.carry2 X).getLsbD i = true := by
  rw [Regs.acc3_T, BitVec.getLsbD_xor]
  cases r.T.getLsbD i <;> simp

/-- Settles O28: both carries and the next count are functions of the old count and X[i]. -/
theorem carriesMarkTheRolls : Obligations.CarriesMarkTheRolls := by
  intro W r X i
  have hcarry := r.carry_getLsbD_iff X i
  have hcarry2 := r.carry2_getLsbD_iff X i
  have hroll := carry_iff_roll (r.L.getLsbD i) (r.H.getLsbD i) (r.T.getLsbD i) (X.getLsbD i)
  have hroll2 := carry2_iff_roll (r.L.getLsbD i) (r.H.getLsbD i) (r.T.getLsbD i) (X.getLsbD i)
  rw [Regs.count3_acc3]
  exact ⟨hcarry, hcarry.trans hroll, hcarry2, hcarry2.trans hroll2,
    (r.acc3_T_getLsbD_ne_iff X i).trans (hcarry2.trans hroll2)⟩

@[simp] theorem Regs.acc3_zero (r : Regs W) : r.acc3 0#W = r := by
  simp [Regs.acc3, Regs.carry, Regs.carry2]

/-- The largest element that fits has every bit set. -/
@[simp] theorem operandX_two_pow_sub_one : operandX W (2 ^ W - 1) = BitVec.allOnes W := by
  apply BitVec.eq_of_toNat_eq
  simp [operandX]

/-- Settles O29. -/
theorem acc3ZeroAndAllOnes : Obligations.Acc3ZeroAndAllOnes := by
  intro W r ps
  refine ⟨?_, r.acc3 (BitVec.allOnes W), ?_, fun i => ?_⟩
  · rw [exec_mk, Regs.command, operandX, Regs.acc3_zero]
  · rw [exec_mk, Regs.command, operandX_two_pow_sub_one]
  · simp [Regs.count3_acc3]

/-- An ACC4 lane where X[i] = 1. -/
theorem acc4Table_true : ∀ lane : Lane,
    acc4Table lane true =
      if lane = (false, false, false) then (true, true, true) else (false, false, false) := by
  decide

/-- An ACC4 lane where X[i] = 0. -/
theorem acc4Table_false : ∀ lane : Lane,
    acc4Table lane false =
      if lane ∈ [(false, false, false), (true, false, false), (false, true, false),
          (false, false, true)]
      then lane else (false, false, false) := by
  decide

/-- One equation of `tally_mod4` in its closed form: `a` is the register written, `b` and `c` are
the other two. -/
theorem acc4_equation_closed (a b c X : Word W) :
    ~~~b &&& ~~~c &&& (a ^^^ X) =
      (X &&& ~~~(a ||| b ||| c)) ||| (~~~X &&& (a &&& ~~~b &&& ~~~c)) := by
  ext i hi
  simp only [BitVec.getElem_and, BitVec.getElem_or, BitVec.getElem_not, BitVec.getElem_xor]
  cases a[i] <;> cases X[i] <;> simp

/-- Settles O36: each register by the closed form of its equation, each lane by its table. -/
theorem acc4ClosedForm : Obligations.Acc4ClosedForm := by
  intro W r X
  refine ⟨acc4_equation_closed r.D0 r.D1 r.D2 X, ?_, ?_, fun i => ⟨fun hX => ?_, fun hX => ?_⟩⟩
  · rw [BitVec.or_comm r.D0 r.D1]
    exact acc4_equation_closed r.D1 r.D0 r.D2 X
  · rw [BitVec.or_comm _ r.D2, ← BitVec.or_assoc]
    exact acc4_equation_closed r.D2 r.D0 r.D1 X
  · rw [Regs.lane4_acc4, hX, acc4Table_true]
  · rw [Regs.lane4_acc4, hX, acc4Table_false]

end Sys2Proof.Machine
end

section
/-! PROOFS. A count determines its position's bits, and after a restart each bank holds the law of
its own elements (R80, R84, R89, R95). -/

namespace Sys2Proof.Machine

variable {W : Nat}

/-- The bits of a three-bit count are read back from it. -/
theorem bits_of_count : ∀ l h t : Bool,
    l = ((4 * t.toNat + 2 * h.toNat + l.toNat) % 2 == 1) ∧
    h = ((4 * t.toNat + 2 * h.toNat + l.toNat) / 2 % 2 == 1) ∧
    t = ((4 * t.toNat + 2 * h.toNat + l.toNat) / 4 % 2 == 1) := by
  decide

theorem Regs.bits_of_count3 (r : Regs W) (i : Fin W) :
    r.L.getLsbD i = (r.count3 i % 2 == 1) ∧ r.H.getLsbD i = (r.count3 i / 2 % 2 == 1) ∧
      r.T.getLsbD i = (r.count3 i / 4 % 2 == 1) :=
  bits_of_count (r.L.getLsbD i) (r.H.getLsbD i) (r.T.getLsbD i)

theorem Regs.res3_le (r : Regs W) (i : Fin W) : r.outputs.res3 i ≤ 3 := by
  have hL := (r.L.getLsbD i).toNat_le
  have hH := (r.H.getLsbD i).toNat_le
  simp only [Outputs.res3, Regs.outputs]
  omega

/-- `(low, high)` is the count without its third bit. -/
theorem Regs.res3_eq_count3_mod (r : Regs W) (i : Fin W) : r.outputs.res3 i = r.count3 i % 4 := by
  have hle := r.res3_le i
  have hcount : r.count3 i = 4 * (r.T.getLsbD i).toNat + r.outputs.res3 i := Nat.add_assoc _ _ _
  omega

/-- Without a restart, bank 3 sees only the elements of the ACC3 edges. -/
theorem Regs.bank3_foldl_edge {r q : Regs W} {vs : List (Inputs W)}
    (hvs : ∀ v ∈ vs, v.restarts = false) (hbank : r.bank3 = q.bank3) :
    (vs.foldl Regs.edge r).bank3 = ((vs.filterMap Inputs.element3?).foldl Regs.acc3 q).bank3 := by
  induction vs generalizing r q with
  | nil => exact hbank
  | cons v vs ih =>
    obtain ⟨hv, htail⟩ := List.forall_mem_cons.mp hvs
    rw [List.foldl_cons, List.filterMap_cons]
    obtain ⟨hrestart, -, -, -⟩ | ⟨-, helem, -, hedge⟩ | ⟨-, helem, -, hedge⟩ |
      ⟨-, helem, -, hedge⟩ := v.edge_arms
    · simp [hv] at hrestart
    · simpa only [helem, hedge, List.foldl_cons] using
        ih htail (Regs.acc3_bank3_congr v.data hbank)
    · simpa only [helem, hedge] using ih htail ((r.acc4_bank3 v.data).trans hbank)
    · simpa only [helem, hedge] using ih htail hbank

/-- Without a restart, bank 4 sees only the elements of the ACC4 edges. -/
theorem Regs.bank4_foldl_edge {r q : Regs W} {vs : List (Inputs W)}
    (hvs : ∀ v ∈ vs, v.restarts = false) (hbank : r.bank4 = q.bank4) :
    (vs.foldl Regs.edge r).bank4 = ((vs.filterMap Inputs.element4?).foldl Regs.acc4 q).bank4 := by
  induction vs generalizing r q with
  | nil => exact hbank
  | cons v vs ih =>
    obtain ⟨hv, htail⟩ := List.forall_mem_cons.mp hvs
    rw [List.foldl_cons, List.filterMap_cons]
    obtain ⟨hrestart, -, -, -⟩ | ⟨-, -, helem, hedge⟩ | ⟨-, -, helem, hedge⟩ |
      ⟨-, -, helem, hedge⟩ := v.edge_arms
    · simp [hv] at hrestart
    · simpa only [helem, hedge] using ih htail ((r.acc3_bank4 v.data).trans hbank)
    · simpa only [helem, hedge, List.foldl_cons] using
        ih htail (Regs.acc4_bank4_congr v.data hbank)
    · simpa only [helem, hedge] using ih htail hbank

/-- An edge that restarts clears the registers, whatever they held. -/
theorem Regs.edge_of_restarts (r : Regs W) {v : Inputs W} (hv : v.restarts = true) :
    r.edge v = Regs.zero W := by
  obtain ⟨-, -, -, hedge⟩ | ⟨hrestart, -⟩ | ⟨hrestart, -⟩ | ⟨hrestart, -⟩ := v.edge_arms
  · exact hedge r
  all_goals simp [hv] at hrestart

/-- A run over a restart ends as if the edges after it had begun from zero. -/
theorem runEdges_restart (r : Regs W) (pre : List (Inputs W)) {z : Inputs W}
    (post : List (Inputs W)) (hz : z.restarts = true) :
    runEdges (pre.length + 1 + post.length) ⟨W, r, (pre ++ z :: post).map Inputs.sample⟩ =
      .next ⟨W, post.foldl Regs.edge (Regs.zero W), []⟩ := by
  have hrun := runEdges_samples r (pre ++ z :: post) []
  have hlen : (pre ++ z :: post).length = pre.length + 1 + post.length := by
    rw [List.length_append, List.length_cons]
    omega
  rwa [hlen, List.append_nil, List.foldl_append, List.foldl_cons,
    Regs.edge_of_restarts _ hz] at hrun

theorem Regs.count3_congr {r q : Regs W} (h : r.bank3 = q.bank3) (i : Fin W) :
    r.count3 i = q.count3 i := by
  obtain ⟨hL, hH, hT⟩ := Regs.bank3_eq_iff.mp h
  rw [Regs.count3, Regs.count3, hL, hH, hT]

theorem Regs.foldl_acc3_L (r : Regs W) (xs : List (Word W)) :
    (xs.foldl Regs.acc3 r).L = xs.foldl (· ^^^ ·) r.L :=
  (List.foldl_hom Regs.L fun q X => (q.acc3_L X).symm).symm

section AfterRestart

variable {post : List (Inputs W)} (hpost : ∀ v ∈ post, v.restarts = false)
include hpost

/-- R80 over edges: bank 3 holds the count of the ACC3 elements since zero. -/
theorem Regs.count3_foldl_edge_zero (i : Fin W) :
    (post.foldl Regs.edge (Regs.zero W)).count3 i =
      setCount i (post.filterMap Inputs.element3?) % 8 := by
  rw [Regs.count3_congr (Regs.bank3_foldl_edge hpost rfl) i, Regs.count3_foldl_acc3,
    Regs.count3_zero, Nat.zero_add]

/-- R84: `(low, high)` is that count modulo 4. -/
theorem Regs.res3_foldl_edge_zero (i : Fin W) :
    (post.foldl Regs.edge (Regs.zero W)).outputs.res3 i =
      setCount i (post.filterMap Inputs.element3?) % 4 := by
  rw [Regs.res3_eq_count3_mod, Regs.count3_foldl_edge_zero hpost]
  omega

/-- L is the exclusive or of the ACC3 elements since zero. -/
theorem Regs.L_foldl_edge_zero :
    (post.foldl Regs.edge (Regs.zero W)).L =
      (post.filterMap Inputs.element3?).foldl (· ^^^ ·) 0#W := by
  obtain ⟨hL, -, -⟩ := Regs.bank3_eq_iff.mp (Regs.bank3_foldl_edge hpost (r := Regs.zero W) rfl)
  rw [hL, Regs.foldl_acc3_L, Regs.zero_L]

end AfterRestart

/-- Settles O30: the bits of the registers are those of the count, which is a sum modulo 8. -/
theorem bank3Counts : Obligations.Bank3Counts := by
  refine ⟨fun _ => Regs.count3_acc3, fun W r pre z post hz hpost =>
    ⟨_, runEdges_restart r pre post hz, Regs.L_foldl_edge_zero hpost, fun i => ?_⟩⟩
  have hcount := Regs.count3_foldl_edge_zero hpost i
  obtain ⟨hL, hH, hT⟩ := (post.foldl Regs.edge (Regs.zero W)).bits_of_count3 i
  rw [hcount] at hL hH hT
  refine ⟨hL.trans ?_, hH.trans ?_, hT.trans ?_, Regs.res3_foldl_edge_zero hpost i, hcount⟩
  · rw [show ∀ c : Nat, c % 8 % 2 = c % 2 by omega]
  · rw [show ∀ c : Nat, c % 8 / 2 % 2 = c / 2 % 2 by omega]
  · rw [show ∀ c : Nat, c % 8 / 4 % 2 = c / 4 % 2 by omega]

/-- Settles O34. -/
theorem lowHighEncodesTheCount : Obligations.LowHighEncodesTheCount := by
  intro W r pre z post hz hpost
  refine ⟨_, runEdges_restart r pre post hz, fun i => ?_⟩
  rw [Regs.res3_foldl_edge_zero hpost i]
  exact ⟨fun hle => Nat.mod_eq_of_lt (by omega), fun _ => rfl⟩

/-- The four lanes that have a residue, and the lanes that have none (R95). -/
theorem Regs.res4_cases (r : Regs W) (i : Fin W) :
    (r.lane4 i = (false, false, false) ↔ r.outputs.res4 i = some 0) ∧
    (r.lane4 i = (true, false, false) ↔ r.outputs.res4 i = some 1) ∧
    (r.lane4 i = (false, true, false) ↔ r.outputs.res4 i = some 2) ∧
    (r.lane4 i = (false, false, true) ↔ r.outputs.res4 i = some 3) ∧
    (2 ≤ (r.D0.getLsbD i).toNat + (r.D1.getLsbD i).toNat + (r.D2.getLsbD i).toNat ↔
      r.outputs.res4 i = none) := by
  simp only [Regs.lane4, Outputs.res4, Regs.outputs]
  generalize r.D0.getLsbD i = d0, r.D1.getLsbD i = d1, r.D2.getLsbD i = d2
  revert d0 d1 d2
  decide

/-- Settles O44. -/
theorem residueDecodes : Obligations.ResidueDecodes := by
  refine ⟨fun W r i => ⟨rfl, r.res3_le i, r.res4_cases i⟩, fun W r pre z post hz hpost =>
    ⟨_, runEdges_restart r pre post hz, fun i => ?_⟩⟩
  have hres := Regs.res3_foldl_edge_zero hpost i
  exact ⟨hres, by omega⟩

/-- A trailing run of set bits ends at the last element. -/
theorem exists_getLast?_of_trailingRun_pos {i : Fin W} {xs : List (Word W)}
    (h : 0 < trailingRun i xs) : ∃ x, xs.getLast? = some x ∧ x.getLsbD i = true := by
  obtain rfl | ⟨xs, x, rfl⟩ := xs.eq_nil_or_concat
  · simp [trailingRun] at h
  · rw [List.concat_eq_append] at h ⊢
    rw [trailingRun_concat] at h
    cases hx : x.getLsbD i with
    | true => exact ⟨x, List.getLast?_concat, hx⟩
    | false => simp only [hx, Bool.false_eq_true, if_false, lt_irrefl] at h

/-- Settles O38: after a restart bank 4 is the fold of ACC4 from zero, which keeps the parities. -/
theorem bank4TracksTrailingRuns : Obligations.Bank4TracksTrailingRuns := by
  refine ⟨fun W r X h01 h12 => Regs.acc4_bank4_of_equal X (by simp [Regs.bank4, ← h12, ← h01]),
    fun W r pre z post hz hpost => ⟨_, runEdges_restart r pre post hz, ?_⟩⟩
  obtain ⟨D, hfold, hparity⟩ := Regs.bank4_foldl_acc4_zero (post.filterMap Inputs.element4?)
  have hbank := (Regs.bank4_foldl_edge hpost rfl).trans hfold
  simp only [Regs.bank4, Prod.mk.injEq] at hbank
  obtain ⟨h0, h1, h2⟩ := hbank
  refine ⟨h0.trans h1.symm, h1.trans h2.symm, fun i => ⟨?_, ?_⟩⟩
  · rw [h0, hparity, beq_iff_eq]
    exact ⟨fun hodd => ⟨exists_getLast?_of_trailingRun_pos (by omega), hodd⟩, And.right⟩
  · rw [Regs.lane4, h0, h1, h2]
    cases D.getLsbD i <;> simp

end Sys2Proof.Machine
end

section
/-! PROOFS. Runs of ACC3 and ACC4 commands: the bank-3 states they reach, their order, and the
commands of one bank among those of the other (R81, R83, R88, R91, R92). -/

namespace Sys2Proof.Machine

variable {W : Nat}

/-- The two banks are all six registers. -/
theorem Regs.eq_of_banks {r q : Regs W} (h3 : r.bank3 = q.bank3) (h4 : r.bank4 = q.bank4) :
    r = q := by
  obtain ⟨hL, hH, hT⟩ := Regs.bank3_eq_iff.mp h3
  obtain ⟨h0, h1, h2⟩ := Regs.bank4_eq_iff.mp h4
  exact Regs.eq_of_get fun g => by cases g <;> assumption

/-- The counts determine bank 3. -/
theorem Regs.bank3_eq_of_count3 {r q : Regs W} (h : ∀ i, r.count3 i = q.count3 i) :
    r.bank3 = q.bank3 := by
  have hbits (i : Nat) (hi : i < W) : r.L.getLsbD i = q.L.getLsbD i ∧
      r.H.getLsbD i = q.H.getLsbD i ∧ r.T.getLsbD i = q.T.getLsbD i := by
    obtain ⟨hrL, hrH, hrT⟩ := r.bits_of_count3 ⟨i, hi⟩
    obtain ⟨hqL, hqH, hqT⟩ := q.bits_of_count3 ⟨i, hi⟩
    rw [h ⟨i, hi⟩] at hrL hrH hrT
    exact ⟨hrL.trans hqL.symm, hrH.trans hqH.symm, hrT.trans hqT.symm⟩
  exact Regs.bank3_eq_iff.mpr
    ⟨BitVec.eq_of_getLsbD_eq fun i hi => have ⟨hL, _, _⟩ := hbits i hi; hL,
      BitVec.eq_of_getLsbD_eq fun i hi => have ⟨_, hH, _⟩ := hbits i hi; hH,
      BitVec.eq_of_getLsbD_eq fun i hi => have ⟨_, _, hT⟩ := hbits i hi; hT⟩

/-- A list of ACC3 commands is the fold of ACC3 over its elements. -/
theorem runEdges_acc3s (r : Regs W) (xs : List Nat) :
    runEdges xs.length ⟨W, r, schedule W (xs.map .acc3)⟩ =
      .next ⟨W, (xs.map (operandX W)).foldl Regs.acc3 r, []⟩ := by
  have hrun := runEdges_schedule r (xs.map .acc3)
  rw [List.length_map] at hrun
  rw [hrun, Regs.run, List.foldl_map, List.foldl_map]
  rfl

/-- ACC3 of a list of elements ends in the registers that keep bank 4 and hold its counts. -/
theorem Regs.foldl_acc3_eq {r q : Regs W} {xs : List (Word W)} (h4 : r.bank4 = q.bank4)
    (hcount : ∀ i, q.count3 i = (r.count3 i + setCount i xs) % 8) :
    xs.foldl Regs.acc3 r = q := by
  refine Regs.eq_of_banks (Regs.bank3_eq_of_count3 fun i => ?_) ?_
  · rw [Regs.count3_foldl_acc3, hcount]
  · rw [Regs.foldl_acc3_bank4, h4]

theorem setCount_replicate (i : Fin W) (k : Nat) (X : Word W) :
    setCount i (List.replicate k X) = if X.getLsbD i then k else 0 :=
  List.countP_replicate

/-- `t` four times, `h` twice and `l` once add up to the count `thl` at every position. -/
theorem Regs.foldl_acc3_zero_reaches (l h t : Word W) :
    [t, t, t, t, h, h, l].foldl Regs.acc3 (Regs.zero W) =
      { Regs.zero W with L := l, H := h, T := t } := by
  refine Regs.foldl_acc3_eq rfl fun i => ?_
  have hlt := Regs.count3_lt { Regs.zero W with L := l, H := h, T := t } i
  have hnil : setCount i ([] : List (Word W)) = 0 := rfl
  rw [Regs.count3_zero]
  simp only [Regs.count3, setCount_cons, hnil] at hlt ⊢
  omega

/-- Settles O31. -/
theorem bank3StatesAllReachable : Obligations.Bank3StatesAllReachable := by
  refine ⟨fun W l h t => ⟨[t, t, t, t, h, h, l].map BitVec.toNat, ?_⟩, fun W k X => ?_⟩
  · rw [runEdges_acc3s, ← Regs.foldl_acc3_zero_reaches]
    simp only [List.map_cons, List.map_nil, operandX_toNat]
  · have hrun := runEdges_acc3s (Regs.zero W) (List.replicate k X.toNat)
    rw [List.length_replicate, List.map_replicate, List.map_replicate, operandX_toNat] at hrun
    refine ⟨_, hrun, fun i => ?_⟩
    rw [Regs.count3_foldl_acc3, Regs.count3_zero, setCount_replicate]
    split <;> simp

/-- Settles O33: a permutation has the same counts. -/
theorem acc3OrderDoesNotMatter : Obligations.Acc3OrderDoesNotMatter := by
  intro W r xs ys hperm
  refine ⟨_, runEdges_acc3s r xs, ?_⟩
  rw [runEdges_acc3s, Regs.foldl_acc3_eq (Regs.foldl_acc3_bank4 r _).symm fun i => ?_]
  have hcount : setCount i (xs.map (operandX W)) = setCount i (ys.map (operandX W)) :=
    (hperm.map (operandX W)).countP_eq _
  rw [Regs.count3_foldl_acc3, hcount]

@[simp] theorem Regs.bank4_zero : (Regs.zero W).bank4 = (0#W, 0#W, 0#W) := rfl

/-- ACC4 from zero copies its element into all three registers. -/
theorem Regs.acc4_bank4_of_zero {r : Regs W} (X : Word W) (h : r.bank4 = (0#W, 0#W, 0#W)) :
    (r.acc4 X).bank4 = (X, X, X) := by
  simpa using Regs.acc4_bank4_of_equal X h

/-- ACC4 of the common value of the three registers clears them. -/
theorem Regs.acc4_bank4_of_same {r : Regs W} {X : Word W} (h : r.bank4 = (X, X, X)) :
    (r.acc4 X).bank4 = (0#W, 0#W, 0#W) := by
  simpa using Regs.acc4_bank4_of_equal X h

/-- ACC4 of zero clears equal registers. -/
theorem Regs.acc4_zero_bank4_of_equal {r : Regs W} {D : Word W} (h : r.bank4 = (D, D, D)) :
    (r.acc4 0#W).bank4 = (0#W, 0#W, 0#W) := by
  simpa using Regs.acc4_bank4_of_equal 0#W h

theorem Regs.lane4_of_bank4 {r : Regs W} {a b c : Word W} (h : r.bank4 = (a, b, c)) (i : Fin W) :
    r.lane4 i = (a.getLsbD i, b.getLsbD i, c.getLsbD i) := by
  simp only [Regs.bank4, Prod.mk.injEq] at h
  obtain ⟨h0, h1, h2⟩ := h
  rw [Regs.lane4, h0, h1, h2]

/-- Settles O37: `1` twice from zero is 111 at position 0 and then zero again. -/
theorem acc4IsNotOneHot : Obligations.Acc4IsNotOneHot := by
  intro W h
  have hbit : (1#W).getLsbD 0 = true := by simp [h]
  have hone := Regs.acc4_bank4_of_zero 1#W (Regs.bank4_zero (W := W))
  have hlane : ((Regs.zero W).acc4 1#W).lane4 ⟨0, h⟩ = (true, true, true) := by
    rw [Regs.lane4_of_bank4 hone, hbit]
  have htwo : ((Regs.zero W).acc4 1#W).acc4 1#W = Regs.zero W :=
    Regs.eq_of_banks rfl (Regs.acc4_bank4_of_same hone)
  obtain ⟨-, -, -, -, hnone⟩ := ((Regs.zero W).acc4 1#W).res4_cases ⟨0, h⟩
  obtain ⟨hres, -⟩ := (Regs.zero W).res4_cases ⟨0, h⟩
  refine ⟨(Regs.zero W).acc4 1#W, Regs.zero W, exec_mk .., hlane, ?_, hnone.mp ?_,
    ?_, rfl, ?_, hres.mp ?_⟩
  · simp [setCount, h]
  · simp only [Regs.lane4, Prod.mk.injEq] at hlane
    obtain ⟨h0, h1, h2⟩ := hlane
    simp only [h0, h1, h2]
    decide
  · rw [exec_mk, Regs.command, operandX, htwo]
  · simp [setCount, h]
  · simp [Regs.lane4]

/-- Settles O40. -/
theorem acc4OrderMatters : Obligations.Acc4OrderMatters := by
  intro W h
  refine ⟨_, _, runEdges_schedule _ [.acc4 1, .acc4 0], ?_,
    runEdges_schedule _ [.acc4 0, .acc4 1], ?_⟩
  · exact Regs.acc4_zero_bank4_of_equal (Regs.acc4_bank4_of_zero 1#W Regs.bank4_zero)
  · have hzero := Regs.acc4_zero_bank4_of_equal (Regs.bank4_zero (W := W))
    refine (Regs.lane4_of_bank4 (Regs.acc4_bank4_of_zero 1#W hzero) ⟨0, h⟩).trans ?_
    simp [h]

/-- ACC3 and ACC4 write and read different registers. -/
theorem Regs.acc3_acc4_comm (r : Regs W) (X Y : Word W) :
    (r.acc3 X).acc4 Y = (r.acc4 Y).acc3 X := rfl

theorem Inputs.element3?_ofInstr (i : Instr) : (Inputs.ofInstr W i).element3? =
    if i.opcode == 0b01#2 then some (BitVec.ofNat W i.element) else none := by
  simp [Inputs.element3?, Inputs.ofInstr, Inputs.ofWord, encode]

/-- Dropping the other commands drops no ACC3 element. -/
theorem Inputs.element3?_map_filter (is : List Instr) :
    ((is.filter (·.opcode == 0b01#2)).map (Inputs.ofInstr W)).filterMap Inputs.element3? =
      (is.map (Inputs.ofInstr W)).filterMap Inputs.element3? := by
  rw [List.filterMap_map, List.filterMap_map, List.filterMap_filter]
  refine List.filterMap_congr fun i _ => ?_
  rw [Function.comp_apply, Inputs.element3?_ofInstr]
  split <;> rfl

theorem Inputs.element4?_ofInstr (i : Instr) : (Inputs.ofInstr W i).element4? =
    if i.opcode == 0b10#2 then some (BitVec.ofNat W i.element) else none := by
  simp [Inputs.element4?, Inputs.ofInstr, Inputs.ofWord, encode]

/-- Dropping the other commands drops no ACC4 element. -/
theorem Inputs.element4?_map_filter (is : List Instr) :
    ((is.filter (·.opcode == 0b10#2)).map (Inputs.ofInstr W)).filterMap Inputs.element4? =
      (is.map (Inputs.ofInstr W)).filterMap Inputs.element4? := by
  rw [List.filterMap_map, List.filterMap_map, List.filterMap_filter]
  refine List.filterMap_congr fun i _ => ?_
  rw [Function.comp_apply, Inputs.element4?_ofInstr]
  split <;> rfl

theorem Inputs.restarts_ofInstr {i : Instr} (h : i ≠ .clr) :
    (Inputs.ofInstr W i).restarts = false := by
  cases i <;> simp_all [Inputs.restarts, Inputs.ofInstr, Inputs.ofWord, encode, Instr.opcode]

/-- A run of commands is the fold of the edges that present them. -/
theorem Regs.run_eq_foldl_edge (r : Regs W) (is : List Instr) :
    r.run is = (is.map (Inputs.ofInstr W)).foldl Regs.edge r := by
  simp [Regs.run, List.foldl_map]

theorem Inputs.restarts_map_ofInstr {is : List Instr} (h : ∀ i ∈ is, i ≠ .clr) :
    ∀ v ∈ is.map (Inputs.ofInstr W), v.restarts = false :=
  List.forall_mem_map.mpr fun i hi => Inputs.restarts_ofInstr (h i hi)

/-- Without CLR, bank 3 after a list of commands is that after its ACC3 commands alone: both present
the same ACC3 elements. -/
theorem Regs.run_bank3_filter (r : Regs W) {is : List Instr} (h : ∀ i ∈ is, i ≠ .clr) :
    (r.run is).bank3 = (r.run (is.filter (·.opcode == 0b01#2))).bank3 := by
  have hacc : ∀ i ∈ is.filter (·.opcode == 0b01#2), i ≠ .clr := fun i hi =>
    h i (List.mem_of_mem_filter hi)
  rw [Regs.run_eq_foldl_edge, Regs.run_eq_foldl_edge,
    Regs.bank3_foldl_edge (Inputs.restarts_map_ofInstr h) rfl,
    Regs.bank3_foldl_edge (Inputs.restarts_map_ofInstr hacc) rfl, Inputs.element3?_map_filter]

/-- Without CLR, bank 4 after a list of commands is that after its ACC4 commands alone: both present
the same ACC4 elements. -/
theorem Regs.run_bank4_filter (r : Regs W) {is : List Instr} (h : ∀ i ∈ is, i ≠ .clr) :
    (r.run is).bank4 = (r.run (is.filter (·.opcode == 0b10#2))).bank4 := by
  have hacc : ∀ i ∈ is.filter (·.opcode == 0b10#2), i ≠ .clr := fun i hi =>
    h i (List.mem_of_mem_filter hi)
  rw [Regs.run_eq_foldl_edge, Regs.run_eq_foldl_edge,
    Regs.bank4_foldl_edge (Inputs.restarts_map_ofInstr h) rfl,
    Regs.bank4_foldl_edge (Inputs.restarts_map_ofInstr hacc) rfl, Inputs.element4?_map_filter]

/-- Settles O42. -/
theorem banksAreIndependent : Obligations.BanksAreIndependent := by
  refine ⟨fun W r x y => ⟨_, runEdges_schedule r [.acc3 x, .acc4 y], ?_⟩, fun W r is h => ?_,
    fun W r => runEdges_schedule r [.nop]⟩
  · exact runEdges_schedule r [.acc4 y, .acc3 x]
  · exact ⟨_, _, _, runEdges_schedule r is, runEdges_schedule r _, runEdges_schedule r _,
      r.run_bank3_filter h, r.run_bank4_filter h⟩

end Sys2Proof.Machine
end

section
/-! PROOFS. The command after a CLR (R102). -/

namespace Sys2Proof.Machine

variable {W : Nat}

/-- There is nothing to carry from zero: ACC3 only copies its element into L. -/
theorem Regs.zero_acc3 (X : Word W) :
    (Regs.zero W).acc3 X = { Regs.zero W with L := X } := by
  refine Regs.eq_of_banks (Regs.bank3_eq_iff.mpr ⟨?_, ?_, ?_⟩) (Regs.acc3_bank4 _ X)
  · rw [Regs.acc3_L, Regs.zero_L, BitVec.zero_xor]
  · simp [Regs.carry]
  · simp [Regs.carry2]

/-- ACC4 from zero copies its element into all of bank 4 and leaves bank 3. -/
theorem Regs.zero_acc4 (X : Word W) :
    (Regs.zero W).acc4 X = { Regs.zero W with D0 := X, D1 := X, D2 := X } :=
  Regs.eq_of_banks (Regs.acc4_bank3 _ X) (Regs.acc4_bank4_of_zero X Regs.bank4_zero)

/-- A command after a CLR acts on zero, whatever the registers were. -/
theorem runEdges_clr_command (r : Regs W) (i : Instr) :
    runEdges 2 ⟨W, r, schedule W [.clr, i]⟩ = .next ⟨W, (Regs.zero W).command i, []⟩ :=
  runEdges_schedule r [.clr, i]

/-- Settles O46. -/
theorem commandAfterClr : Obligations.CommandAfterClr := by
  refine fun W r X => ⟨?_, ?_⟩
  · rw [runEdges_clr_command, Regs.command, operandX_toNat, Regs.zero_acc3]
  · rw [runEdges_clr_command, Regs.command, operandX_toNat, Regs.zero_acc4]

end Sys2Proof.Machine
end

section
/-! PROOFS. Reset edges, and a run of edges seen as the fold of the commands since the last reset
(R141, R143, R144, R148). -/

namespace Sys2Proof.Machine

variable {W : Nat}

/-- Settles O15: the arms written out are those of `Regs.edge`, with the reset values in place. -/
theorem stepIsTheSpecsFunction : Obligations.StepIsTheSpecsFunction := fun _ => step_sample

@[simp] theorem State.outputs_setPresented (s : State) (ps : List (Sample s.W)) :
    (s.setPresented ps).outputs = s.outputs := rfl

/-- Settles O45: the outputs read the registers alone, which an edge writes and a schedule does
not. -/
theorem outputsChangeOnlyAtEdges : Obligations.OutputsChangeOnlyAtEdges :=
  ⟨State.outputs_setPresented, fun _ r ps v => ⟨r.edge v, step_sample r ps v, rfl⟩⟩

/-- An edge without reset that presents a command runs it. -/
theorem Regs.edge_of_command (r : Regs W) {v : Inputs W} (hrst : v.rst = false)
    (hvalid : v.valid = true) : r.edge v = r.command (decode v.word) := by
  simp [Regs.edge, hrst, hvalid, Regs.command_decode_word]

/-- An edge without reset runs the one command presented at it, or none. -/
theorem Regs.edge_eq_run (r : Regs W) {v : Inputs W} (hrst : v.rst = false) :
    r.edge v = r.run v.command?.toList := by
  cases hvalid : v.valid with
  | true => simp [Regs.edge_of_command r hrst hvalid, Inputs.command?, hvalid, Regs.run]
  | false => simp [Regs.edge, hrst, hvalid, Inputs.command?, Regs.run]

/-- Reset edges give zero: the last of them does, whatever the ones before it did. -/
theorem Regs.foldl_edge_of_rst (r : Regs W) {vs : List (Inputs W)} (hne : vs ≠ [])
    (hrst : ∀ v ∈ vs, v.rst = true) : vs.foldl Regs.edge r = Regs.zero W := by
  rw [← List.dropLast_append_getLast hne, List.foldl_concat]
  exact Regs.edge_of_rst _ (hrst _ (List.getLast_mem hne))

/-- Settles O17. -/
theorem resetDiscardsCommands : Obligations.ResetDiscardsCommands := by
  intro W r vs c ps hne hrst hc hvalid
  have hreset : runEdges vs.length ⟨W, r, vs.map Inputs.sample ++ c.sample :: ps⟩ =
      .next ⟨W, Regs.zero W, c.sample :: ps⟩ := by
    rw [runEdges_samples, Regs.foldl_edge_of_rst r hne hrst]
  refine ⟨hreset, ?_⟩
  calc runEdges (vs.length + 1) ⟨W, r, vs.map Inputs.sample ++ c.sample :: ps⟩
      = runEdges 1 ⟨W, Regs.zero W, c.sample :: ps⟩ := runEdges_add hreset
    _ = .next ⟨W, (Regs.zero W).edge c, ps⟩ := runEdges_samples (Regs.zero W) [c] ps
    _ = exec (decode c.word) ⟨W, Regs.zero W, ps⟩ := by
      rw [Regs.edge_of_command _ hc hvalid, exec_mk]

/-- A reset edge leaves no command to run. -/
theorem transactions_concat_of_rst (vs : List (Inputs W)) {v : Inputs W} (h : v.rst = true) :
    transactions (vs ++ [v]) = [] := by
  simp [transactions, sinceReset, h]

/-- An edge without reset adds the command presented at it, if there is one. -/
theorem transactions_concat (vs : List (Inputs W)) {v : Inputs W} (h : v.rst = false) :
    transactions (vs ++ [v]) = transactions vs ++ v.command?.toList := by
  cases hcommand : v.command? <;> simp [transactions, sinceReset, h, hcommand]

theorem foldStart_concat_of_rst (r : Regs W) (vs : List (Inputs W)) {v : Inputs W}
    (h : v.rst = true) : foldStart r (vs ++ [v]) = Regs.zero W := by
  simp [foldStart, h]

theorem foldStart_concat (r : Regs W) (vs : List (Inputs W)) {v : Inputs W} (h : v.rst = false) :
    foldStart r (vs ++ [v]) = foldStart r vs := by
  simp [foldStart, h]

@[simp] theorem Regs.run_nil (r : Regs W) : r.run [] = r := rfl

theorem Regs.run_append (r : Regs W) (is js : List Instr) :
    r.run (is ++ js) = (r.run is).run js :=
  List.foldl_append

/-- R144 on the registers: the last edge is a reset, which starts the fold afresh, or it adds at
most one command at the end of it. -/
theorem Regs.foldl_edge_eq_run_transactions (r : Regs W) (vs : List (Inputs W)) :
    vs.foldl Regs.edge r = (foldStart r vs).run (transactions vs) := by
  induction vs using List.reverseRecOn with
  | nil => rfl
  | append_singleton vs v ih =>
    rw [List.foldl_concat]
    cases hrst : v.rst with
    | true =>
      rw [Regs.edge_of_rst _ hrst, foldStart_concat_of_rst r vs hrst,
        transactions_concat_of_rst vs hrst, Regs.run_nil]
    | false =>
      rw [Regs.edge_eq_run _ hrst, ih, foldStart_concat r vs hrst, transactions_concat vs hrst,
        Regs.run_append]

/-- Settles O47. -/
theorem transactionView : Obligations.TransactionView := by
  intro W r vs
  have hrun := runEdges_samples r vs []
  rwa [List.append_nil, Regs.foldl_edge_eq_run_transactions] at hrun

end Sys2Proof.Machine
end

section
/-! PROOFS. The round trip of encoding, words written out, and elements wider than the port (R55 to
R59). -/

namespace Sys2Proof

/-- Settles O3: a well-formed command's element fits the port, so its word gives it back. -/
theorem decodeEncodeRoundTrip : Obligations.DecodeEncodeRoundTrip := by
  intro W i hwf
  obtain ⟨-, helement⟩ := (Instr.wf_iff i).mp hwf
  exact decode_encode_of_element_lt helement

/-- Settles O5: the eight words of the table, each run through the decoder. -/
theorem writtenOutWordsDecode : Obligations.WrittenOutWordsDecode := by
  refine ⟨?_, ?_, ?_, ?_, ?_, ?_, ?_, ?_⟩ <;> decide

namespace Machine

/-- The operand is the element modulo `2 ^ W` (R46, R62). -/
theorem operandX_mod (W x : Nat) : operandX W (x % 2 ^ W) = operandX W x := by
  apply BitVec.eq_of_toNat_eq
  simp [operandX]

/-- Settles O12: both commands read their element through the operand only. -/
theorem wideElementIsReduced : Obligations.WideElementIsReduced := by
  intro s x
  constructor
  · simp only [exec, execAcc3, operandX_mod]
  · simp only [exec, execAcc4, operandX_mod]

end Machine

end Sys2Proof
end

section
/-! PROOFS. All that one step can do, and what every step therefore keeps: it stops on undefined
ports only, writes the registers only, and keeps the registers of bank 4 equal (R89, R128, R150). -/

namespace Sys2Proof.Machine

variable {W : Nat}

/-- A sample has no values exactly when one of its ports is undefined. -/
theorem Sample.inputs?_eq_none_iff (p : Sample W) :
    p.inputs? = none ↔ p.rst = none ∨ p.valid = none ∨ p.op = none ∨ p.data = none := by
  obtain ⟨rst, valid, op, data⟩ := p
  cases rst <;> cases valid <;> cases op <;> cases data <;> simp [Sample.inputs?]

/-- The host's duty at an edge is that the sample has values. -/
theorem Sample.defined_iff (p : Sample W) : p.defined = true ↔ p.inputs? ≠ none := by
  simp [Sample.defined, Sample.inputs?_eq_none_iff, Option.isSome_iff_ne_none, and_assoc]

/-- All that a step can do: hold past the end of the schedule, take a defined sample and let its
edge act on the registers, or refuse an undefined one. -/
theorem step_cases (s : State) :
    (s.presented = [] ∧ step s = .next s) ∨
    (∃ v ps, s.presented = Inputs.sample v :: ps ∧ step s = .next ⟨s.W, s.regs.edge v, ps⟩) ∨
    (∃ p ps, s.presented = p :: ps ∧ p.inputs? = none ∧ step s = .refused .undefinedInput) := by
  obtain ⟨W, r, presented⟩ := s
  cases presented with
  | nil => exact .inl ⟨rfl, step_nil r⟩
  | cons p ps =>
    obtain ⟨v, hv, -⟩ | ⟨hp, hedge⟩ := edge_cases ⟨W, r, ps⟩ p
    · obtain rfl := Sample.inputs?_eq_some hv
      exact .inr (.inl ⟨v, ps, rfl, step_sample r ps v⟩)
    · exact .inr (.inr ⟨p, ps, rfl, hp, (step_cons r p ps).trans hedge⟩)

/-- A step that has a next state held, or took a sample whose edge acted on the registers. -/
theorem step_eq_next {s t : State} (h : step s = .next t) :
    (s.presented = [] ∧ t = s) ∨
    ∃ v ps, s.presented = Inputs.sample v :: ps ∧ t = ⟨s.W, s.regs.edge v, ps⟩ := by
  obtain ⟨hs, hstep⟩ | ⟨v, ps, hs, hstep⟩ | ⟨p, ps, -, -, hstep⟩ := step_cases s
  · rw [hstep] at h
    cases h
    exact .inl ⟨hs, rfl⟩
  · rw [hstep] at h
    cases h
    exact .inr ⟨v, ps, hs, rfl⟩
  · simp [hstep] at h

/-- R150: a step is refused exactly when the next sample has an undefined port. -/
theorem step_eq_refused_iff (s : State) (q : Refusal) :
    step s = .refused q ↔
      q = .undefinedInput ∧ ∃ p ps, s.presented = p :: ps ∧ p.inputs? = none := by
  obtain ⟨hs, hstep⟩ | ⟨v, ps, hs, hstep⟩ | ⟨p, ps, hs, hp, hstep⟩ := step_cases s
  · simp [hs, hstep]
  · simp [hs, hstep]
  · simp [hs, hstep, hp, eq_comm]

/-- Settles O20: `Fault` has no constructor, and a sample without values has an undefined port. -/
theorem stepStopsOnlyOnUndefinedInputs : Obligations.StepStopsOnlyOnUndefinedInputs := by
  intro s
  refine ⟨fun f => (nomatch f), fun q => ?_⟩
  simp only [step_eq_refused_iff, Sample.inputs?_eq_none_iff]

/-- A host that keeps its duty gets a next state, and its duty is then kept on what is left. -/
theorem step_of_driven {s : State} (h : s.driven = true) :
    ∃ t, step s = .next t ∧ t.driven = true := by
  rw [State.driven, List.all_eq_true] at h
  obtain ⟨hs, hstep⟩ | ⟨v, ps, hs, hstep⟩ | ⟨p, ps, hs, hp, -⟩ := step_cases s
  · exact ⟨s, hstep, by simp [State.driven, hs]⟩
  · rw [hs] at h
    exact ⟨_, hstep, List.all_eq_true.mpr fun p hp => h p (List.mem_cons_of_mem _ hp)⟩
  · have hdefined := h p (by simp [hs])
    exact absurd hp ((Sample.defined_iff p).mp hdefined)

/-- Settles O21, by induction on the number of edges. -/
theorem drivenRunsNeverStop : Obligations.DrivenRunsNeverStop := by
  intro n
  induction n with
  | zero => exact fun s _ => ⟨s, runEdges_zero s⟩
  | succ n ih =>
    intro s hdriven
    obtain ⟨t, hstep, ht⟩ := step_of_driven hdriven
    rw [runEdges_succ hstep]
    exact ih t ht

/-- Settles O24: the registers are all that an edge writes. -/
theorem stepWritesOnlyTheRegisters : Obligations.StepWritesOnlyTheRegisters := by
  intro s t hstep
  obtain ⟨hs, rfl⟩ | ⟨v, ps, hs, rfl⟩ := step_eq_next hstep
  · exact ⟨t.regs, by rw [hs, List.tail_nil, ← hs]⟩
  · exact ⟨s.regs.edge v, by rw [hs, List.tail_cons]⟩

theorem State.bank4Agrees_iff (s : State) : s.bank4Agrees ↔ ∃ D, s.regs.bank4 = (D, D, D) := by
  simp only [State.bank4Agrees, Regs.bank4, Prod.mk.injEq]
  exact ⟨fun ⟨h01, h12⟩ => ⟨s.regs.D2, h01.trans h12, h12, rfl⟩,
    fun ⟨_, h0, h1, h2⟩ => ⟨h0.trans h1.symm, h1.trans h2.symm⟩⟩

/-- R89 for one edge: only ACC4 writes bank 4 other than to zero, and from equal registers it writes
all three alike. -/
theorem Regs.edge_bank4_of_equal {r : Regs W} {D : Word W} (v : Inputs W)
    (h : r.bank4 = (D, D, D)) : ∃ E, (r.edge v).bank4 = (E, E, E) := by
  obtain ⟨-, -, -, hedge⟩ | ⟨-, -, -, hedge⟩ | ⟨-, -, -, hedge⟩ | ⟨-, -, -, hedge⟩ := v.edge_arms
  · exact ⟨0#W, by rw [hedge, Regs.bank4_zero]⟩
  · exact ⟨D, by rw [hedge, Regs.acc3_bank4, h]⟩
  · exact ⟨v.data &&& ~~~D, by rw [hedge, Regs.acc4_bank4_of_equal v.data h]⟩
  · exact ⟨D, by rw [hedge, h]⟩

/-- Settles O25. -/
theorem stepKeepsBank4Agreement : Obligations.StepKeepsBank4Agreement := by
  intro s t hs hstep
  obtain ⟨-, rfl⟩ | ⟨v, ps, -, rfl⟩ := step_eq_next hstep
  · exact hs
  · obtain ⟨D, hD⟩ := s.bank4Agrees_iff.mp hs
    exact (State.bank4Agrees_iff _).mpr (Regs.edge_bank4_of_equal v hD)

/-- Settles O26: all three registers are zero. -/
theorem resetHasBank4Agreement : Obligations.ResetHasBank4Agreement :=
  have hzero (W : Nat) : (State.resetAt W).bank4Agrees := ⟨rfl, rfl⟩
  ⟨hzero _, hzero⟩

/-- Settles O22: each edge holds, and leaves the schedule empty. -/
theorem unscheduledEdgeHolds : Obligations.UnscheduledEdgeHolds := by
  intro n W r
  induction n with
  | zero => exact runEdges_zero _
  | succ n ih => rw [runEdges_succ (step_nil r), ih]

end Sys2Proof.Machine
end

section
/-! PROOFS. The corner cases of ACC3 and ACC4, and that no edge moves a value between positions
(R76, R80, R86, R93). -/

namespace Sys2Proof.Machine

variable {W : Nat}

/-- A lane of bank 3 is its count, written in three bits. -/
theorem Regs.lane3_eq_of_count3 {r : Regs W} {i : Fin W} {n : Nat} (h : r.count3 i = n) :
    r.lane3 i = (n / 4 % 2 == 1, n / 2 % 2 == 1, n % 2 == 1) := by
  obtain ⟨hL, hH, hT⟩ := r.bits_of_count3 i
  rw [Regs.lane3, hL, hH, hT, h]

/-- Where X[i] = 1, ACC3 leaves the lane of the next count. -/
theorem Regs.lane3_acc3_of_count3 {r : Regs W} {X : Word W} {i : Fin W} {n : Nat}
    (hX : X.getLsbD i = true) (h : r.count3 i = n) :
    (r.acc3 X).lane3 i =
      ((n + 1) % 8 / 4 % 2 == 1, (n + 1) % 8 / 2 % 2 == 1, (n + 1) % 8 % 2 == 1) := by
  refine Regs.lane3_eq_of_count3 ?_
  rw [Regs.count3_acc3, hX, h, Bool.toNat_true]

/-- ACC3 twice with one element brings L back. -/
theorem Regs.acc3_acc3_L (r : Regs W) (X : Word W) : ((r.acc3 X).acc3 X).L = r.L := by
  rw [Regs.acc3_L, Regs.acc3_L, BitVec.xor_assoc, BitVec.xor_self, BitVec.xor_zero]

/-- ACC3 of an element that is not zero changes L. -/
theorem Regs.acc3_L_ne (r : Regs W) {X : Word W} (hX : X ≠ 0#W) : (r.acc3 X).L ≠ r.L := by
  simpa using hX

/-- Settles O32: L as an exclusive or, the rest by counting at one position. -/
theorem acc3CornerCases : Obligations.Acc3CornerCases := by
  intro W r X
  refine ⟨r.acc3_acc3_L X, fun hX h => ?_, fun i hX => ⟨?_,
    Regs.lane3_acc3_of_count3 hX, Regs.lane3_acc3_of_count3 hX,
    Regs.lane3_acc3_of_count3 hX, Regs.lane3_acc3_of_count3 hX⟩, fun h => ?_⟩
  · exact (r.acc3 X).acc3_L_ne hX (congrArg Regs.L h)
  · rw [Regs.count3_acc3, Regs.count3_acc3, hX, Bool.toNat_true]
    omega
  · simp only [Regs.bank3, Prod.mk.injEq] at h ⊢
    obtain ⟨hL, hH, hT⟩ := h
    simp [Regs.carry, Regs.carry2, hL, hH, hT]

/-- Settles O39: each case is the law of bank 4 from equal registers. -/
theorem acc4CornerCases : Obligations.Acc4CornerCases := by
  intro W r X
  have honce (Y : Word W) := Regs.acc4_bank4_of_zero Y Regs.bank4_zero
  refine ⟨fun h01 h12 => ?_, honce X, Regs.acc4_bank4_of_same (honce X), honce _,
    Regs.acc4_bank4_of_same (honce _)⟩
  exact Regs.acc4_zero_bank4_of_equal (D := r.D0) (by simp [Regs.bank4, ← h12, ← h01])

/-- What an edge does to a lane of bank 3: only a restart and ACC3 write it, and ACC3 by its
table. -/
theorem Regs.lane3_edge (r : Regs W) (v : Inputs W) (i : Fin W) :
    (r.edge v).lane3 i =
      if v.restarts then (false, false, false)
      else if v.element3?.isSome then acc3Table (r.lane3 i) (v.data.getLsbD i)
      else r.lane3 i := by
  obtain ⟨hrestart, -, -, hedge⟩ | ⟨hrestart, helem, -, hedge⟩ | ⟨hrestart, helem, -, hedge⟩ |
    ⟨hrestart, helem, -, hedge⟩ := v.edge_arms
  · simp [hrestart, hedge, Regs.lane3]
  · simp [hrestart, helem, hedge, Regs.lane3_acc3]
  · simp [hrestart, helem, hedge, Regs.lane3]
  · simp [hrestart, helem, hedge]

/-- What an edge does to a lane of bank 4: only a restart and ACC4 write it, and ACC4 by its
table. -/
theorem Regs.lane4_edge (r : Regs W) (v : Inputs W) (i : Fin W) :
    (r.edge v).lane4 i =
      if v.restarts then (false, false, false)
      else if v.element4?.isSome then acc4Table (r.lane4 i) (v.data.getLsbD i)
      else r.lane4 i := by
  obtain ⟨hrestart, -, -, hedge⟩ | ⟨hrestart, -, helem, hedge⟩ | ⟨hrestart, -, helem, hedge⟩ |
    ⟨hrestart, -, helem, hedge⟩ := v.edge_arms
  · simp [hrestart, hedge, Regs.lane4]
  · simp [hrestart, helem, hedge, Regs.lane4]
  · simp [hrestart, helem, hedge, Regs.lane4_acc4]
  · simp [hrestart, helem, hedge]

/-- Which arm an edge takes does not depend on `cmd_data`. -/
theorem Inputs.arm_congr {v u : Inputs W} (hrst : v.rst = u.rst) (hvalid : v.valid = u.valid)
    (hop : v.op = u.op) :
    v.restarts = u.restarts ∧ v.element3?.isSome = u.element3?.isSome ∧
      v.element4?.isSome = u.element4?.isSome := by
  simp only [Inputs.restarts, Inputs.element3?, Inputs.element4?, hrst, hvalid, hop]
  refine ⟨trivial, ?_, ?_⟩ <;> split <;> rfl

/-- Settles O43: the arm is the same on both sides, and each arm is a function of the lane and of
the element's bit. -/
theorem lanesAreIndependent : Obligations.LanesAreIndependent := by
  intro W r q ps v u i hlane3 hlane4 hrst hvalid hop hdata
  obtain ⟨hrestarts, helem3, helem4⟩ := Inputs.arm_congr hrst hvalid hop
  refine ⟨r.edge v, q.edge u, step_sample r ps v, step_sample q ps u, ?_, ?_⟩
  · rw [Regs.lane3_edge, Regs.lane3_edge, hrestarts, helem3, hlane3, hdata]
  · rw [Regs.lane4_edge, Regs.lane4_edge, hrestarts, helem4, hlane4, hdata]

end Sys2Proof.Machine
end

section
/-! PROOFS. The control commands, the step that runs a presented word, and runs that are traced or
restarted (R100, R101, R126, R140 to R146). -/

namespace Sys2Proof.Machine

variable {W : Nat}

/-- Settles O8. -/
theorem nopChangesNothing : Obligations.NopChangesNothing := fun s =>
  exec_mk .nop s.regs s.presented

/-- Settles O9. -/
theorem clrZeroesAllRegisters : Obligations.ClrZeroesAllRegisters := fun s =>
  exec_mk .clr s.regs s.presented

/-- Settles O50: the registers before the first reset are read as any others. -/
theorem commandBeforeResetActsOnDraws : Obligations.CommandBeforeResetActsOnDraws := fun k W =>
  exec_mk (.acc3 1) (State.powerOn k W).regs []

/-- Settles O13: for ACC3 and ACC4 the element 1 twice from reset, which sets bit 0 and clears it
again. -/
theorem idempotentCommands : Obligations.IdempotentCommands := by
  refine ⟨fun s t h => ?_, fun s t h => ?_, ?_, ?_⟩
  · rw [nopChangesNothing] at h
    cases h
    exact ⟨nopChangesNothing _, rfl⟩
  · rw [clrZeroesAllRegisters] at h
    cases h
    exact clrZeroesAllRegisters _
  · exact ⟨State.reset, _, _, 1, exec_mk .., exec_mk .., by decide⟩
  · exact ⟨State.reset, _, _, 1, exec_mk .., exec_mk .., by decide⟩

/-- Settles O14. -/
theorem stepRunsDecodedCommand : Obligations.StepRunsDecodedCommand := by
  rintro W r ps op d i rfl
  rw [step_sample, exec_mk, Regs.edge_of_command r rfl rfl, Inputs.word]

/-- Settles O19. -/
theorem resetAndClrGiveTheSameState : Obligations.ResetAndClrGiveTheSameState := by
  intro W r ps v d hrst
  rw [step_sample, step_sample, Regs.edge_of_rst r hrst, Regs.edge_clr]
  exact ⟨rfl, rfl⟩

/-- A number that is a command word presents that word. -/
theorem Sample.ofNumber_of_lt {w : Nat} (h : w < 2 ^ (2 + W)) :
    Sample.ofNumber W w = (Inputs.ofWord (BitVec.ofNat (2 + W) w)).sample := by
  simp [Sample.ofNumber, commandWord?, h, Inputs.ofWord, Inputs.sample]

/-- A presented number that is a command word runs as its command. -/
theorem step_withFetchWord_of_lt (s : State) (nbits : Nat) {w : Nat} (h : w < 2 ^ (2 + s.W)) :
    step (s.withFetchWord nbits w) = exec (decode (BitVec.ofNat (2 + s.W) w)) s := by
  obtain ⟨W, r, ps⟩ := s
  rw [State.withFetchWord, State.setPresented_mk, Sample.ofNumber_of_lt h, step_sample, exec_mk,
    Regs.edge_of_command r rfl rfl, Inputs.word_ofWord]

/-- A presented number that is no command word leaves the command wires undefined. -/
theorem step_withFetchWord_of_not_lt (s : State) (nbits : Nat) {w : Nat}
    (h : ¬ w < 2 ^ (2 + s.W)) : step (s.withFetchWord nbits w) = .refused .undefinedInput := by
  have hop : (Sample.ofNumber s.W w).op = none := by simp [Sample.ofNumber, commandWord?, h]
  exact (step_eq_refused_iff _ _).mpr
    ⟨rfl, _, _, rfl, (Sample.inputs?_eq_none_iff _).mpr (.inr (.inr (.inl hop)))⟩

/-- The numbers of a row of the opcode table are those of the reference width's command words. -/
theorem decodeTableWord_eq (nbits w : Nat) :
    decodeTableWord nbits w =
      if w < 2 ^ (2 + State.reset.W) then some (decode (BitVec.ofNat (2 + State.reset.W) w))
      else none := by
  rw [decodeTableWord, commandWord?, apply_ite (Option.map decode)]
  rfl

/-- Settles O23. -/
theorem presentedWordRunsNext : Obligations.PresentedWordRunsNext := by
  refine ⟨fun s nbits w => step_withFetchWord_of_lt s nbits, fun nbits w i h => ?_,
    fun nbits w h => ?_⟩
  · rw [decodeTableWord_eq, Option.ite_none_right_eq_some] at h
    obtain ⟨hlt, hdecode⟩ := h
    rw [step_withFetchWord_of_lt _ nbits hlt, Option.some.inj hdecode]
  · refine step_withFetchWord_of_not_lt _ nbits fun hlt => ?_
    rw [decodeTableWord_eq, if_pos hlt] at h
    cases h

/-- The trace after `k + 1` edges holds the outputs that those edges leave. -/
theorem Regs.trace_getElem? (r : Regs W) {vs : List (Inputs W)} {k : Nat} (h : k < vs.length) :
    (r.trace vs)[k]? = some ((vs.take (k + 1)).foldl Regs.edge r).outputs := by
  induction vs generalizing r k with
  | nil => simp at h
  | cons v vs ih =>
    cases k with
    | zero => rfl
    | succ k => exact ih (r.edge v) (Nat.lt_of_succ_lt_succ h)

/-- Settles O48: a run over the first edges leaves the samples of the others. -/
theorem traceShowsEveryState : Obligations.TraceShowsEveryState := by
  intro W r vs k hk
  have hrun := runEdges_samples r (vs.take (k + 1)) ((vs.drop (k + 1)).map Inputs.sample)
  rw [List.length_take_of_le hk, ← List.map_append, List.take_append_drop] at hrun
  exact ⟨_, hrun, r.trace_getElem? hk⟩

/-- Settles O49: both runs end as if they had begun from zero after the restart. -/
theorem restartForgetsThePast : Obligations.RestartForgetsThePast := fun _ r q pre _ post hz =>
  ⟨_, runEdges_restart r pre post hz, runEdges_restart q pre post hz⟩

end Sys2Proof.Machine
end

section
/-! PROOFS. Programs line by line (R61), and the assembler on the disassembler's text (R66). -/

namespace Sys2Proof.Machine

variable {W : Nat}

/-- Lines put after a program that assembles, and numbered on from it, follow its commands. -/
theorem assembleLines_append {k : Nat} {ls ls' : List (List Char)} {is is' : List Instr}
    (h : assembleLines W k ls = .ok is) (h' : assembleLines W (k + ls.length) ls' = .ok is') :
    assembleLines W k (ls ++ ls') = .ok (is ++ is') := by
  induction ls generalizing k is with
  | nil =>
    obtain rfl : [] = is := by simpa [assembleLines] using h
    exact h'
  | cons l ls ih =>
    have hnext : k + (l :: ls).length = k + 1 + ls.length := by
      rw [List.length_cons]
      omega
    rw [hnext] at h'
    rw [List.cons_append]
    obtain ⟨-, hl⟩ | ⟨hline, hl⟩ | ⟨st, -, -, hl⟩ | ⟨st, hline, hfits, hl⟩ :=
      assembleLines_cons_cases W k l ls
    · simp [hl] at h
    · simp [assembleLines, hline, ih (hl.symm.trans h) h']
    · simp [hl] at h
    · cases hrest : assembleLines W (k + 1) ls with
      | error e => simp [hl, hrest] at h
      | ok js =>
        obtain rfl : st.expand W ++ js = is := by simpa [hl, hrest] using h
        simp [assembleLines, hline, hfits, ih hrest h']

/-- Settles O55. -/
theorem programsAssembleInTextOrder : Obligations.ProgramsAssembleInTextOrder :=
  ⟨fun _ _ _ _ _ _ => assembleLines_append, fun _ _ => ⟨rfl, rfl, rfl, rfl⟩⟩

/-- A text without the separator is one piece. -/
theorem splitBy_of_notMem {sep : Char} {cs : List Char} (h : sep ∉ cs) : splitBy sep cs = [cs] := by
  induction cs with
  | nil => rfl
  | cons c cs ih =>
    rw [List.mem_cons, not_or] at h
    obtain ⟨hc, htail⟩ := h
    simp [splitBy, Ne.symm hc, ih htail]

/-- What no piece of a statement holds: white space, the comment mark and the end of a line. -/
def isPlain (c : Char) : Bool := !isBlank c && c != ';' && c != '\n'

theorem isPlain_iff (c : Char) : isPlain c = true ↔ isBlank c = false ∧ c ≠ ';' ∧ c ≠ '\n' := by
  simp [isPlain, and_assoc]

theorem dropWhile_isBlank_eq_self {cs : List Char} (h : ∀ c ∈ cs.head?, isBlank c = false) :
    cs.dropWhile isBlank = cs := by
  cases cs with
  | nil => rfl
  | cons c cs => simp [h c rfl]

/-- A text that neither begins nor ends with white space is left as it is. -/
theorem trim_eq_self {cs : List Char} (hhead : ∀ c ∈ cs.head?, isBlank c = false)
    (hlast : ∀ c ∈ cs.getLast?, isBlank c = false) : trim cs = cs := by
  have hreverse : ∀ c ∈ cs.reverse.head?, isBlank c = false := by rwa [List.head?_reverse]
  rw [trim, dropWhile_isBlank_eq_self hhead, dropWhile_isBlank_eq_self hreverse,
    List.reverse_reverse]

/-- White space before a text without any is trimmed. -/
theorem trim_space_cons {cs : List Char} (h : ∀ c ∈ cs, isBlank c = false) :
    trim (' ' :: cs) = cs :=
  trim_eq_self (fun c hc => h c (List.mem_of_mem_head? hc))
    (fun c hc => h c (List.mem_of_mem_getLast? hc))

section Words

variable {word operand : List Char} (hplain : ∀ c ∈ word ++ operand, isPlain c = true)
include hplain

theorem isBlank_of_words : ∀ c ∈ word ++ operand, isBlank c = false := fun c hc =>
  have ⟨hblank, _⟩ := (isPlain_iff c).mp (hplain c hc)
  hblank

/-- There is no comment to take off a line of two words. -/
theorem takeWhile_comment_words :
    (word ++ ' ' :: operand).takeWhile (· != ';') = word ++ ' ' :: operand := by
  refine List.takeWhile_eq_self_iff.mpr fun c hc => ?_
  obtain hword | hoperand := List.mem_append.mp hc
  · obtain ⟨-, hc, -⟩ := (isPlain_iff c).mp (hplain c (List.mem_append_left _ hword))
    exact bne_iff_ne.mpr hc
  · obtain rfl | hmem := List.mem_cons.mp hoperand
    · decide
    · obtain ⟨-, hc, -⟩ := (isPlain_iff c).mp (hplain c (List.mem_append_right _ hmem))
      exact bne_iff_ne.mpr hc

/-- There is no white space to take off a line of two words. -/
theorem trim_words (hword : word ≠ []) (hoperand : operand ≠ []) :
    trim (word ++ ' ' :: operand) = word ++ ' ' :: operand := by
  refine trim_eq_self (fun c hc => isBlank_of_words hplain c ?_)
    (fun c hc => isBlank_of_words hplain c ?_)
  · rw [List.head?_append_of_ne_nil _ hword] at hc
    exact List.mem_append_left _ (List.mem_of_mem_head? hc)
  · rw [List.getLast?_append_cons, List.getLast?_cons_of_ne_nil hoperand] at hc
    exact List.mem_append_right _ (List.mem_of_mem_getLast? hc)

/-- A line of two words is the statement of the first on the second. -/
theorem line?_of_words (hword : word ≠ []) (hoperand : operand ≠ []) :
    line? (word ++ ' ' :: operand) = (statement? word operand).map some := by
  have hblank := isBlank_of_words hplain
  have hnotBlank : ∀ c ∈ word, (!isBlank c) = true := fun c hc => by
    rw [hblank c (List.mem_append_left _ hc), Bool.not_false]
  have htake : (word ++ ' ' :: operand).takeWhile (fun c => !isBlank c) = word := by
    rw [List.takeWhile_append_of_pos hnotBlank]
    exact List.append_nil word
  have hdrop : (word ++ ' ' :: operand).dropWhile (fun c => !isBlank c) = ' ' :: operand :=
    List.dropWhile_append_of_pos hnotBlank
  rw [line?, takeWhile_comment_words hplain, trim_words hplain hword hoperand]
  split
  · next hnil => simp at hnil
  · rw [htake, hdrop, trim_space_cons fun c hc => hblank c (List.mem_append_right _ hc)]

end Words

/-- A program of one line stands for the commands of its statement. -/
theorem assemble_of_line {text : List Char} {st : Stmt} (htext : '\n' ∉ text)
    (hline : line? text = some (some st)) (hfits : st.fits W = true) :
    assemble W text = .ok ((st.expand W).map (encode W)) := by
  simp [assemble, assembleInstrs, splitBy_of_notMem htext, assembleLines, hline, hfits]

/-- The sixteen digits of the disassembler, read back by the assembler. -/
theorem digitValue_hexDigit : ∀ d < 16, digitValue (hexDigit d) = some d := by
  decide

theorem isPlain_hexDigit : ∀ d < 16, isPlain (hexDigit d) = true := by
  decide

theorem isPlain_of_mem_hexDigits {c : Char} {k x : Nat} (h : c ∈ hexDigits k x) :
    isPlain c = true := by
  induction k generalizing x with
  | zero => cases h
  | succ k ih =>
    obtain hc | hc := List.mem_append.mp h
    · exact ih hc
    · rw [List.mem_singleton.mp hc]
      exact isPlain_hexDigit _ (Nat.mod_lt _ (by decide))

/-- Reading digits in two parts. -/
theorem digitsFrom_append (base acc : Nat) (cs ds : List Char) :
    digitsFrom base acc (cs ++ ds) = (digitsFrom base acc cs).bind (digitsFrom base · ds) := by
  induction cs generalizing acc with
  | nil => rfl
  | cons c cs ih =>
    simp only [List.cons_append, digitsFrom]
    split
    · split
      · exact ih _
      · rfl
    · rfl

/-- The low `k` digits of a number are read back as its value modulo `16 ^ k`. -/
theorem digitsFrom_hexDigits (k x : Nat) : digitsFrom 16 0 (hexDigits k x) = some (x % 16 ^ k) := by
  induction k generalizing x with
  | zero => simp [hexDigits, digitsFrom, Nat.mod_one]
  | succ k ih =>
    have hd : x % 16 < 16 := Nat.mod_lt _ (by decide)
    rw [hexDigits, digitsFrom_append, ih]
    simp only [Option.bind_some, digitsFrom, digitValue_hexDigit _ hd, if_pos hd]
    rw [Nat.pow_succ', Nat.mod_mul]
    congr 1
    omega

theorem isPlain_of_mem_elementText {c : Char} {x : Nat} (h : c ∈ elementText W x) :
    isPlain c = true := by
  obtain hlead | hdigit := List.mem_append.mp h
  · have hall : "0x".toList.all isPlain = true := by decide
    exact List.all_eq_true.mp hall c hlead
  · exact isPlain_of_mem_hexDigits hdigit

/-- `0x` and at least one digit are a literal of the value of the digits. -/
theorem literal?_hex {cs : List Char} {n : Nat} (hne : cs ≠ [])
    (hn : digitsFrom 16 0 cs = some n) : literal? ("0x".toList ++ cs) = some (n : Int) := by
  cases cs with
  | nil => exact absurd rfl hne
  | cons c cs => simp [literal?, number?, hn]

/-- There are enough digits for every element (R66). -/
theorem two_pow_le_sixteen_pow (W : Nat) : 2 ^ W ≤ 16 ^ ((W + 3) / 4) := by
  calc 2 ^ W ≤ 2 ^ (4 * ((W + 3) / 4)) := Nat.pow_le_pow_right (by decide) (by omega)
    _ = 16 ^ ((W + 3) / 4) := by rw [Nat.pow_mul]

/-- The text of an element that fits the port is a literal of its value. -/
theorem literal?_elementText {x : Nat} (hW : 1 ≤ W) (hx : x < 2 ^ W) :
    literal? (elementText W x) = some (x : Int) := by
  have hne : hexDigits ((W + 3) / 4) x ≠ [] := by
    obtain ⟨k, hk⟩ : ∃ k, (W + 3) / 4 = k + 1 := ⟨(W + 3) / 4 - 1, by omega⟩
    simp [hk, hexDigits]
  refine literal?_hex hne ?_
  rw [digitsFrom_hexDigits, Nat.mod_eq_of_lt (hx.trans_le (two_pow_le_sixteen_pow W))]

/-- A literal that fits the port is not reduced. -/
theorem literalData_of_lt {x : Nat} (h : x < 2 ^ W) : literalData W x = x := by
  have hcast := literalData_cast W x
  rw [Int.emod_eq_of_lt (by positivity) (by exact_mod_cast h)] at hcast
  exact_mod_cast hcast

/-- A mnemonic that takes a literal, on the text of an element that fits the port. -/
theorem assemble_mnemonic_elementText {word : List Char} {st : Int → Stmt} {x : Nat}
    (hword : word ≠ []) (hplain : word.all isPlain = true)
    (hst : ∀ rest, statement? word rest = (literal? rest).map st)
    (hfits : (st x).fits W = true) (hW : 1 ≤ W) (hx : x < 2 ^ W) :
    assemble W (word ++ ' ' :: elementText W x) = .ok (((st x).expand W).map (encode W)) := by
  have hall : ∀ c ∈ word ++ elementText W x, isPlain c = true := fun c hc =>
    (List.mem_append.mp hc).elim (List.all_eq_true.mp hplain c) isPlain_of_mem_elementText
  refine assemble_of_line (fun hmem => ?_) ?_ hfits
  · have hnewline : '\n' ∈ word ++ elementText W x := by simpa using hmem
    exact absurd (hall _ hnewline) (by decide)
  · rw [line?_of_words hall hword (by simp [elementText]), hst, literal?_elementText hW hx]
    rfl

/-- The text of every word, by its command (R66). -/
theorem disassemble_cases (cw : CommandWord W) :
    (decode cw = .nop ∧ disassemble cw = "NOP".toList) ∨
    (decode cw = .acc3 (dataField cw).toNat ∧
      disassemble cw = "ACC3".toList ++ ' ' :: elementText W (dataField cw).toNat) ∨
    (decode cw = .acc4 (dataField cw).toNat ∧
      disassemble cw = "ACC4".toList ++ ' ' :: elementText W (dataField cw).toNat) ∨
    (decode cw = .clr ∧ disassemble cw = "CLR".toList) := by
  obtain ⟨-, h⟩ | ⟨-, h⟩ | ⟨-, h⟩ | ⟨-, h⟩ := decode_cases cw <;> simp [disassemble, h]

/-- Settles O56: NOP and CLR are fixed texts, and an element's text is read back as the element. -/
theorem assemblerReadsTheDisassembly : Obligations.AssemblerReadsTheDisassembly := by
  intro W cw hW
  have hlt := (dataField cw).isLt
  obtain ⟨h, htext⟩ | ⟨h, htext⟩ | ⟨h, htext⟩ | ⟨h, htext⟩ := disassemble_cases cw
  · rw [htext, h]
    exact assemble_of_line (st := .nop) (by decide) (by decide) rfl
  · rw [htext, h, assemble_mnemonic_elementText (st := .acc3) (by decide) (by decide)
      (fun _ => rfl) rfl hW hlt, Stmt.expand, literalData_of_lt hlt]
    rfl
  · rw [htext, h, assemble_mnemonic_elementText (st := .acc4) (by decide) (by decide)
      (fun _ => rfl) rfl hW hlt, Stmt.expand, literalData_of_lt hlt]
    rfl
  · rw [htext, h]
    exact assemble_of_line (st := .clr) (by decide) (by decide) rfl

end Sys2Proof.Machine
end
